-- ==== Sys2Proof/Word.lean ====
section
/-! DEFINITION. The machine's word types (00_scope.md R4, R5). -/

namespace Sys2Proof

/-- A byte: an unsigned value 0..255 in 8 bits (R5). The width of a register and of a memory cell (`XLEN`, R4). -/
abbrev Byte := BitVec 8

/-- The program counter: 9 bits (`PC_WIDTH`, R4; 10_state.md R16). Only 0..256 are reachable. -/
abbrev Pc := BitVec 9

/-- A register index, 0..7 (`NREGS`, R4; 10_state.md R10). -/
abbrev Reg := Fin 8

end Sys2Proof
end

