-- ==== Sys2Proof/Config.lean ====
section
/-! DEFINITION. The parameters of 00_scope.md R4 with the values R4 gives them. The opcode map is in Decode.lean
(`opcodeOf`). `EXIT_HALT`, `EXIT_FAULT` and `EXIT_USAGE` are the host's and stay open (R4, 70_reset_and_hazards.md R178).
The spec leaves no value open to every implementation (93_implementation_defined.md section 2), so there is no free value. -/

namespace Sys2Proof.Config

/-- `SP_INDEX`: register 7 is the stack pointer (10_state.md R13). -/
abbrev SP : Reg := 7

/-- `FL_INDEX`: register 4 is the flags register (10_state.md R19). UNVERIFIED: the aliasing is the spec's decision D2
(log entry 2, unsafe). -/
abbrev FL : Reg := 4

/-- `MEM_SIZE`: the number of memory cells, addresses 0..255 (10_state.md R23). -/
abbrev memSize : Nat := 256

/-- `MEM_FILL`: what a cell nothing has written reads as (10_state.md R24, 70_reset_and_hazards.md R160).
UNVERIFIED: the spec's decision D7 (log entry 5, unsafe). -/
abbrev memFill : Byte := 0x00#8

/-- `SP_RESET` (70_reset_and_hazards.md R156). -/
abbrev spReset : Byte := 0xF4#8

/-- `FL_RESET` (70_reset_and_hazards.md R156). -/
abbrev flReset : Byte := 0x00#8

/-- `REG_RESET`, for registers 0, 1, 2, 3, 5 and 6 (70_reset_and_hazards.md R157). UNVERIFIED: the spec's decision D3
(log entry 3, unsafe). -/
abbrev regReset : Byte := 0x00#8

/-- `PC_RESET` (70_reset_and_hazards.md R158). UNVERIFIED: the spec's decision D8 (log entry 4). -/
abbrev pcReset : Pc := 0#9

end Sys2Proof.Config
end

