-- ==== Sys2Proof/Syntax.lean ====
section
/-! DEFINITION. The instructions as the decoder hands them to the machine: one constructor per row of
spec/opcode_table.json, each with the operand bytes its format has (30_encoding.md R53, R65). -/

namespace Sys2Proof

/-- An instruction. A register operand is the RAW operand byte (30_encoding.md R55): its range is checked when the
instruction uses it (10_state.md R12), so a byte above 7 is an instruction too, one that faults or, for a conditional
jump that is not taken, runs (43_control_flow.md R108). -/
inductive Instr where
  /-- LDI Ra, imm (44_load_print_halt.md R120). -/
  | ldi (a imm : Byte)
  /-- PRN Ra (44_load_print_halt.md R121). -/
  | prn (a : Byte)
  /-- HLT (44_load_print_halt.md R122). -/
  | hlt
  /-- ADD Ra, Rb (41_alu.md R87). -/
  | add (a b : Byte)
  /-- MUL Ra, Rb (41_alu.md R88). -/
  | mul (a b : Byte)
  /-- CMP Ra, Rb (41_alu.md R89). -/
  | cmp (a b : Byte)
  /-- PUSH Ra (42_stack.md R95). -/
  | push (a : Byte)
  /-- POP Ra (42_stack.md R96). -/
  | pop (a : Byte)
  /-- CALL Ra (43_control_flow.md R105). -/
  | call (a : Byte)
  /-- RET (43_control_flow.md R106). -/
  | ret
  /-- JMP Ra (43_control_flow.md R107). -/
  | jmp (a : Byte)
  /-- JEQ Ra (43_control_flow.md R108). -/
  | jeq (a : Byte)
  /-- JNE Ra (43_control_flow.md R109). -/
  | jne (a : Byte)
deriving DecidableEq, Repr

end Sys2Proof
end

