-- ==== Sys2Proof/WellFormed.lean ====
section
/-! DEFINITION. Which instructions name only registers that exist (30_encoding.md R53, R55). -/

namespace Sys2Proof

/-- A register operand byte is in 0..7 (30_encoding.md R55, 10_state.md R12). -/
def isRegisterByte (o : Byte) : Bool := o.toNat ≤ 7

/-- Every register operand of the instruction is in 0..7; the immediate of LDI may be any byte (R53, R56). The machine
does not demand it: an instruction that is not well formed is decoded and run, and faults where it uses the operand. -/
def Instr.wellFormed : Instr → Bool
  | .ldi a _ => isRegisterByte a
  | .prn a => isRegisterByte a
  | .hlt => true
  | .add a b => isRegisterByte a && isRegisterByte b
  | .mul a b => isRegisterByte a && isRegisterByte b
  | .cmp a b => isRegisterByte a && isRegisterByte b
  | .push a => isRegisterByte a
  | .pop a => isRegisterByte a
  | .call a => isRegisterByte a
  | .ret => true
  | .jmp a => isRegisterByte a
  | .jeq a => isRegisterByte a
  | .jne a => isRegisterByte a

end Sys2Proof
end

