-- ==== Sys2Proof/Decode.lean ====
section
/-! DEFINITION. Decoding three fetched bytes to an instruction or a rejection by name, and encoding an instruction to its
bytes (30_encoding.md, 40_loop.md R72, R73). The low nibbles of the opcode bytes are PRESUMED (decision D1, log entry 1). -/

namespace Sys2Proof

/-- Why a fetched opcode byte is no instruction. The two names are the spec's (30_encoding.md R61, R62). -/
inductive DecodeReject where
  /-- A byte with bit 5 set that is not 0xA0, 0xA2 or 0xA7 (41_alu.md R93). Safe: the step takes the spec's fault. -/
  | unsupportedAluOperation (ir : Byte)
  /-- A byte with bit 5 clear that is not one of the ten non-ALU opcodes (60_exceptions.md R133). Safe: as above. -/
  | unknownOpcode (ir : Byte)
deriving DecidableEq, Repr

/-! ### Fields of the opcode byte (30_encoding.md R51, 40_loop.md R72) -/

/-- `n`, bits 7 to 6: how many operand bytes the instruction owns. -/
def operandCount (ir : Byte) : BitVec 2 := ir.extractLsb' 6 2

/-- `isAlu`, bit 5. -/
def isAlu (ir : Byte) : Bool := ir.getLsbD 5

/-- `setsPc`, bit 4: decoded, and read by no rule (40_loop.md R74). -/
def setsPc (ir : Byte) : Bool := ir.getLsbD 4

/-- `id`, bits 3 to 0. -/
def opcodeId (ir : Byte) : BitVec 4 := ir.extractLsb' 0 4

/-! ### The decoder -/

/-- The ALU's own decoding: three legal bytes, matched whole (30_encoding.md R59, R60; 41_alu.md R93). -/
def decodeAlu (ir opa opb : Byte) : Except DecodeReject Instr :=
  if ir = 0xA0#8 then .ok (.add opa opb)
  else if ir = 0xA2#8 then .ok (.mul opa opb)
  else if ir = 0xA7#8 then .ok (.cmp opa opb)
  else .error (.unsupportedAluOperation ir)

/-- The dispatch table of the ten non-ALU opcodes (40_loop.md R73). -/
def decodeTable (ir opa opb : Byte) : Except DecodeReject Instr :=
  if ir = 0x82#8 then .ok (.ldi opa opb)
  else if ir = 0x47#8 then .ok (.prn opa)
  else if ir = 0x01#8 then .ok .hlt
  else if ir = 0x45#8 then .ok (.push opa)
  else if ir = 0x46#8 then .ok (.pop opa)
  else if ir = 0x50#8 then .ok (.call opa)
  else if ir = 0x11#8 then .ok .ret
  else if ir = 0x54#8 then .ok (.jmp opa)
  else if ir = 0x55#8 then .ok (.jeq opa)
  else if ir = 0x56#8 then .ok (.jne opa)
  else .error (.unknownOpcode ir)

/-- Decode the three fetched bytes; bit 5 is tested first (30_encoding.md R60, 40_loop.md R73). Operand bytes the
instruction does not own are ignored (40_loop.md R75). -/
def decode (ir opa opb : Byte) : Except DecodeReject Instr :=
  if isAlu ir then decodeAlu ir opa opb else decodeTable ir opa opb

/-! ### The encoder -/

/-- The opcode byte of each instruction: `OPCODE_MAP` (00_scope.md R4, 30_encoding.md R58). -/
def opcodeOf : Instr → Byte
  | .ldi _ _ => 0b10000010#8
  | .prn _ => 0b01000111#8
  | .hlt => 0b00000001#8
  | .add _ _ => 0b10100000#8
  | .mul _ _ => 0b10100010#8
  | .cmp _ _ => 0b10100111#8
  | .push _ => 0b01000101#8
  | .pop _ => 0b01000110#8
  | .call _ => 0b01010000#8
  | .ret => 0b00010001#8
  | .jmp _ => 0b01010100#8
  | .jeq _ => 0b01010101#8
  | .jne _ => 0b01010110#8

/-- The operand bytes the instruction owns, in memory order (30_encoding.md R53, 20_memory.md R36). -/
def operandsOf : Instr → List Byte
  | .ldi a imm => [a, imm]
  | .prn a => [a]
  | .hlt => []
  | .add a b => [a, b]
  | .mul a b => [a, b]
  | .cmp a b => [a, b]
  | .push a => [a]
  | .pop a => [a]
  | .call a => [a]
  | .ret => []
  | .jmp a => [a]
  | .jeq a => [a]
  | .jne a => [a]

/-- The bytes of an instruction, the one at the lowest address first (30_encoding.md R50, R53). -/
def encode (i : Instr) : List Byte := opcodeOf i :: operandsOf i

/-! ### The opcode table's numbering of bits -/

/-- The three bytes of an instruction given as the opcode table numbers its bits: bit 0 is the least significant bit of
the first byte, a later byte's bits count on; bits from `nbits` up are 0. -/
def tableWordBytes (nbits w : Nat) : Byte × Byte × Byte :=
  let v := w % 2 ^ nbits
  (BitVec.ofNat 8 v, BitVec.ofNat 8 (v / 256), BitVec.ofNat 8 (v / 65536))

/-- The instruction the decoder reads from a table word. -/
def decodeTableWord (nbits w : Nat) : Option Instr :=
  let (ir, opa, opb) := tableWordBytes nbits w
  match decode ir opa opb with
  | .ok i => some i
  | .error _ => none

end Sys2Proof
end

