-- ==== Sys2Proof/Machine/State.lean ====
section
/-! DEFINITION. The whole state of LS8-CORE as plain data (10_state.md), the reasons a step can stop, and the state after
reset (70_reset_and_hazards.md R155). -/

namespace Sys2Proof.Machine

/-! ### Faults of the machine, as its `status` records them (60_exceptions.md section 1) -/

/-- The three fault kinds (60_exceptions.md R130, R134). -/
inductive FaultKind where
  | memoryFault
  | unsupportedAluOperation
  | unknownOpcode
deriving DecidableEq, Repr

/-- The three sub-causes of a MemoryFault, each with the value it records (60_exceptions.md R131). -/
inductive MemoryCause where
  /-- An access at an address below 0 or above 255. -/
  | address (a : Int)
  /-- An operand byte above 7 used as a register index. -/
  | registerIndex (o : Byte)
  /-- A pop or return that would take the stack pointer to 256. -/
  | stackPointer (v : Int)
deriving DecidableEq, Repr

/-- A fault's kind together with its info (60_exceptions.md R131, R132, R133). -/
inductive FaultInfo where
  | memoryFault (cause : MemoryCause)
  | unsupportedAluOperation (opcode : Byte)
  | unknownOpcode (opcode : Byte)
deriving DecidableEq, Repr

/-- The kind field of the fault record (60_exceptions.md R140). -/
def FaultInfo.kind : FaultInfo → FaultKind
  | .memoryFault _ => .memoryFault
  | .unsupportedAluOperation _ => .unsupportedAluOperation
  | .unknownOpcode _ => .unknownOpcode

/-- The fault record `Faulted(kind, info, pc0, ir)` (60_exceptions.md R140); its kind is `info.kind`. -/
structure FaultRecord where
  /-- Kind and info. -/
  info : FaultInfo
  /-- The address of the instruction's opcode byte. -/
  pc0  : Pc
  /-- The fetched opcode byte; absent if the first fetch read faulted. -/
  ir   : Option Byte
deriving DecidableEq, Repr

/-- The run status (10_state.md R25). -/
inductive Status where
  | running
  | halted
  | faulted (r : FaultRecord)
deriving DecidableEq, Repr

/-! ### Memory -/

/-- Memory as the cells that differ from `Config.memFill`, by rising address (10_state.md R23, R24). -/
abbrev Memory := List Host.Cell

/-- The canonical form: addresses strictly rising, all below `Config.memSize`, no entry equal to what an unlisted address
reads as. Equal memories are equal lists (`Laws/Memory.lean`). -/
abbrev Memory.wf (m : Memory) : Prop :=
  m.Pairwise (fun c d => c.1 < d.1) ∧ ∀ c ∈ m, c.1 < Config.memSize ∧ c.2 ≠ Config.memFill

/-! ### The state -/

/-- Everything the spec gives the machine (10_state.md, opening paragraph; R26: nothing else is state). -/
structure State where
  /-- `x[0..7]` (R10); `x[7]` is the stack pointer (R13), `x[4]` the flags register (R19). -/
  regs   : Vector Byte 8
  /-- The program counter (R16). -/
  pc     : Pc
  /-- `MEM[0..255]` (R23). -/
  mem    : Memory
  /-- The run status (R25). -/
  status : Status
  /-- `OUT`, oldest byte first (R27). -/
  out    : List Byte
deriving DecidableEq, Repr

/-- Why the machine takes no step. A fault the SPEC names is not here: it is taken, and stands in `State.status`
(60_exceptions.md R139; log entry 14). -/
inductive Fault where
  /-- Raised by `step` when the status is Halted: "from `Halted` or `Faulted` there is no step" (40_loop.md R70). Safe. -/
  | noStepHalted
  /-- Raised by `step` when the status is Faulted, with its record (40_loop.md R70, 60_exceptions.md R142). Safe. -/
  | noStepFaulted (r : FaultRecord)
deriving DecidableEq, Repr

/-- Why the model gives an instruction no meaning. -/
inductive Refusal where
  /-- Raised by `exec` for an instruction without a meaning; no arm of this model does. Safe. -/
  | notModelled (mnemonic : String)
deriving DecidableEq, Repr

/-- What an instruction or a step answers. -/
abbrev Result := Host.Outcome State Fault Refusal

/-- The state after reset, before the loader writes memory (70_reset_and_hazards.md R155 to R159). Registers 4 and 7 have
the source's values; registers 0 to 3, 5 and 6, pc and memory have the values of the spec's decisions D3, D8 and D7
(UNVERIFIED, log entries 3, 4, 5). -/
def State.reset : State where
  regs := #v[Config.regReset, Config.regReset, Config.regReset, Config.regReset,
             Config.flReset, Config.regReset, Config.regReset, Config.spReset]
  pc := Config.pcReset
  mem := []
  status := .running
  out := []

end Sys2Proof.Machine
end

