-- ==== Sys2Proof/Machine/Ops.lean ====
section
/-! DEFINITION. The named operations over registers, memory, program counter, output and status that every meaning is
written with (00_scope.md R7), and taking a fault (60_exceptions.md R139). -/

namespace Sys2Proof.Machine

/-! ### Registers (10_state.md R10): none is hardwired, all eight read and write alike -/

/-- `x[r]`. -/
def State.reg (s : State) (r : Reg) : Byte := s.regs[r]

/-- `x[r] <- v`. -/
def State.setReg (s : State) (r : Reg) (v : Byte) : State := { s with regs := s.regs.set r v }

/-! ### Program counter, status, output -/

/-- `pc <- p`. -/
def State.setPc (s : State) (p : Pc) : State := { s with pc := p }

/-- `status <- st`. -/
def State.setStatus (s : State) (st : Status) : State := { s with status := st }

/-- `Emit(v)`: append a byte to the output stream (00_scope.md R7, 10_state.md R27). UNVERIFIED: the port is the spec's
decision D12 (log entry 12). -/
def State.emit (s : State) (v : Byte) : State := { s with out := s.out ++ [v] }

/-- A byte as a program counter: a transfer target is used as it stands (43_control_flow.md R110). -/
def pcOfByte (v : Byte) : Pc := v.setWidth 9

/-- `npc = pc0 + n + 1`, the address of the next instruction in sequence (30_encoding.md R52, 40_loop.md R72).
DESIGN CHOICE (log entry 15): the sum is taken in the 9 bits of pc, which is exact whenever the instruction was fetched
(pc0 at most 253). -/
def nextPc (pc0 : Pc) (ir : Byte) : Pc := pc0 + (operandCount ir).setWidth 9 + 1

/-- The program counter after an instruction that does not transfer control (10_state.md R17, 40_loop.md R74). -/
def State.advance (s : State) (ir : Byte) : State := s.setPc (nextPc s.pc ir)

/-! ### Memory cells -/

/-- The byte at an address: its entry, or `MEM_FILL` where none is listed. -/
def cellAt : Memory → Nat → Byte
  | [], _ => Config.memFill
  | (k, w) :: m, a => if k = a then w else cellAt m a

/-- Set the byte at an address, keeping the canonical form: writing `MEM_FILL` removes the entry. -/
def putCell : Memory → Nat → Byte → Memory
  | [], a, v => if v = Config.memFill then [] else [(a, v)]
  | (k, w) :: m, a, v =>
    if a < k then (if v = Config.memFill then (k, w) :: m else (a, v) :: (k, w) :: m)
    else if a = k then (if v = Config.memFill then m else (a, v) :: m)
    else (k, w) :: putCell m a v

/-- The address is one of the 256 cells (20_memory.md R30, R31). -/
abbrev inMemory (a : Int) : Prop := 0 ≤ a ∧ a < Config.memSize

/-- `MemRead(a, 1)` (20_memory.md R30). -/
def memRead (s : State) (a : Int) : Except FaultInfo Byte :=
  if inMemory a then .ok (cellAt s.mem a.toNat) else .error (.memoryFault (.address a))

/-- `MemWrite(a, 1, v)` (20_memory.md R31). -/
def memWrite (s : State) (a : Int) (v : Byte) : Except FaultInfo State :=
  if inMemory a then .ok { s with mem := putCell s.mem a.toNat v } else .error (.memoryFault (.address a))

/-! ### The stack-pointer controller (10_state.md R14) -/

/-- A byte as the integer the controller computes with: unsigned, unbounded (10_state.md R14). -/
def byteInt (v : Byte) : Int := v.toNat

/-- `v - 1`, the stack pointer of a push: an access at -1 is the spec's fault (42_stack.md R95, R98). -/
def spBefore (v : Byte) : Except FaultInfo Byte :=
  if byteInt v - 1 < 0 then .error (.memoryFault (.address (byteInt v - 1))) else .ok (v - 1)

/-- `v + 1`, the stack pointer after a pop: 256 does not fit in the register (42_stack.md R96, R98). UNVERIFIED: the
spec's decision D6 (log entry 8). -/
def spAfter (v : Byte) : Except FaultInfo Byte :=
  if byteInt v + 1 > 255 then .error (.memoryFault (.stackPointer (byteInt v + 1))) else .ok (v + 1)

/-! ### Taking a fault (60_exceptions.md section 4). There is no return from one (R142), so none is modelled beside it. -/

/-- `raise`: the status records the fault, the instruction's address (pc still holds it) and its opcode byte; nothing
else changes (60_exceptions.md R139, R140, R141). UNVERIFIED: precision is the spec's decision D18 (log entry 18), the
record's form D10 (log entry 10). -/
def raiseFault (f : FaultInfo) (ir : Option Byte) (s : State) : Result :=
  .next (s.setStatus (.faulted { info := f, pc0 := s.pc, ir := ir }))

/-- End an instruction with opcode byte `ir` begun in state `s`: its effect, or, if it raised, the fault taken in `s`
itself, so that nothing of the effect remains (00_scope.md R7, 60_exceptions.md R141). -/
def finish (ir : Byte) (s : State) (effect : Except FaultInfo State) : Result :=
  match effect with
  | .ok t => .next t
  | .error f => raiseFault f (some ir) s

/-- The machine's fault for a rejected opcode byte (60_exceptions.md R132, R133). -/
def faultOfReject : DecodeReject → FaultInfo
  | .unsupportedAluOperation ir => .unsupportedAluOperation ir
  | .unknownOpcode ir => .unknownOpcode ir

end Sys2Proof.Machine
end

