-- ==== Sys2Proof/Machine/Flags.lean ====
section
/-! DEFINITION. The flags register, which is register 4 (10_state.md R19 to R21), and the one flag computation of the
machine, CMP's (41_alu.md R89). -/

namespace Sys2Proof.Machine

/-- The flags byte `FL` (10_state.md R19). -/
def State.flags (s : State) : Byte := s.reg Config.FL

/-- Bit 0, Equal: the only flag an instruction reads (10_state.md R21, 43_control_flow.md R113). -/
def State.flagEqual (s : State) : Bool := s.flags.getLsbD 0

/-- Bit 1, Greater-than (10_state.md R19). -/
def State.flagGreater (s : State) : Bool := s.flags.getLsbD 1

/-- Bit 2, Less-than (10_state.md R19). -/
def State.flagLess (s : State) : Bool := s.flags.getLsbD 2

/-- The flags byte CMP writes: the unsigned relation of `l` to `r`, exactly one of three (41_alu.md R89, R90). -/
def compareFlags (l r : Byte) : Byte :=
  if l.toNat = r.toNat then 0b00000001#8
  else if l.toNat > r.toNat then 0b00000010#8
  else 0b00000100#8

end Sys2Proof.Machine
end

