-- ==== Sys2Proof/Machine/Operands.lean ====
section
/-! DEFINITION. The operand forms (30_encoding.md R55, R56, R57): a register operand, an immediate byte, and the
stack-pointer operand of PUSH, POP, CALL and RET (42_stack.md R100). There are no others. -/

namespace Sys2Proof.Machine

/-- `RegIdx(o)`: the whole operand byte is the index; above 7 it faults (00_scope.md R7, 10_state.md R12). -/
def regIdx (o : Byte) : Except FaultInfo Reg :=
  if h : o.toNat < 8 then .ok ⟨o.toNat, h⟩ else .error (.memoryFault (.registerIndex o))

/-- The immediate operand, taken as it stands (30_encoding.md R56). -/
def immediate (o : Byte) : Byte := o

/-- The new stack pointer of a push, which is also the address stored to (42_stack.md R97, R100). -/
def pushAddress (s : State) : Except FaultInfo Byte := spBefore (s.reg Config.SP)

/-- Push a byte that may depend on the state after the decrement: decrement the stack pointer, then write at the new
value (42_stack.md R95, 43_control_flow.md R105). -/
def pushByte (s : State) (v : State → Byte) : Except FaultInfo State := do
  let sp ← pushAddress s
  let s1 := s.setReg Config.SP sp
  memWrite s1 (byteInt sp) (v s1)

/-- The byte on top of the stack (42_stack.md R96, 43_control_flow.md R106). -/
def topByte (s : State) : Except FaultInfo Byte := memRead s (byteInt (s.reg Config.SP))

end Sys2Proof.Machine
end

