-- ==== Sys2Proof/Machine/Alu.lean ====
section
/-! DEFINITION. ADD, MUL and CMP (41_alu.md). -/

namespace Sys2Proof.Machine

/-- The exact sum of two bytes, reduced mod 256 (41_alu.md R86). -/
def addBytes (x y : Byte) : Byte := BitVec.ofNat 8 (x.toNat + y.toNat)

/-- The exact product of two bytes, reduced mod 256 (41_alu.md R86). -/
def mulBytes (x y : Byte) : Byte := BitVec.ofNat 8 (x.toNat * y.toNat)

/-- The shape of ADD and MUL: both operands checked, left first (41_alu.md R91; UNVERIFIED: decision D9, log entry 9),
the result to the left register, no flag written (R92). -/
def aluBinary (op : Byte → Byte → Byte) (ir a b : Byte) (s : State) : Result :=
  finish ir s do
    let ra ← regIdx a
    let rb ← regIdx b
    return (s.setReg ra (op (s.reg ra) (s.reg rb))).advance ir

/-- ADD Ra, Rb (R87). -/
def execAdd (a b : Byte) (s : State) : Result := aluBinary addBytes (opcodeOf (.add a b)) a b s

/-- MUL Ra, Rb (R88). -/
def execMul (a b : Byte) (s : State) : Result := aluBinary mulBytes (opcodeOf (.mul a b)) a b s

/-- CMP Ra, Rb: both registers are read before the flags byte is overwritten whole (R89). -/
def execCmp (a b : Byte) (s : State) : Result :=
  let ir := opcodeOf (.cmp a b)
  finish ir s do
    let ra ← regIdx a
    let rb ← regIdx b
    return (s.setReg Config.FL (compareFlags (s.reg ra) (s.reg rb))).advance ir

end Sys2Proof.Machine
end

