-- ==== Sys2Proof/Machine/ControlFlow.lean ====
section
/-! DEFINITION. CALL, RET, JMP, JEQ and JNE (43_control_flow.md). Every rule states its final pc outright; `setsPc` is
read by none (40_loop.md R74, 90_conflicts.md C1). -/

namespace Sys2Proof.Machine

/-- The return address CALL pushes: `pc0 + 2` as a byte (R105). It fits whenever the CALL was fetched, since pc0 is then
at most 253; DESIGN CHOICE (log entry 15): elsewhere its low 8 bits. -/
def returnAddress (pc0 : Pc) (ir : Byte) : Byte := (nextPc pc0 ir).setWidth 8

/-- Set pc to the byte in the register the operand names (R107). -/
def jumpVia (a : Byte) (s : State) : Except FaultInfo State := do
  let ra ← regIdx a
  return s.setPc (pcOfByte (s.reg ra))

/-- A conditional jump: the operand is looked at only if the jump is taken (R108, R109; UNVERIFIED: decision D11, log
entry 11). -/
def jumpIf (taken : Bool) (ir a : Byte) (s : State) : Result :=
  finish ir s (if taken then jumpVia a s else .ok (s.advance ir))

/-- CALL Ra: push the return address, then jump to the register as read after the decrement (R105). -/
def execCall (a : Byte) (s : State) : Result :=
  let ir := opcodeOf (.call a)
  finish ir s do
    let ra ← regIdx a
    let t ← pushByte s (fun _ => returnAddress s.pc ir)
    return t.setPc (pcOfByte (t.reg ra))

/-- RET: pop the program counter (R106). -/
def execRet (s : State) : Result :=
  let ir := opcodeOf .ret
  finish ir s do
    let v ← topByte s
    let sp ← spAfter (s.reg Config.SP)
    return (s.setReg Config.SP sp).setPc (pcOfByte v)

/-- JMP Ra (R107). -/
def execJmp (a : Byte) (s : State) : Result := finish (opcodeOf (.jmp a)) s (jumpVia a s)

/-- JEQ Ra: taken if the Equal bit is set (R108). -/
def execJeq (a : Byte) (s : State) : Result := jumpIf s.flagEqual (opcodeOf (.jeq a)) a s

/-- JNE Ra: taken if the Equal bit is clear (R109). -/
def execJne (a : Byte) (s : State) : Result := jumpIf (!s.flagEqual) (opcodeOf (.jne a)) a s

end Sys2Proof.Machine
end

