-- ==== Sys2Proof/Machine/LoadPrintHalt.lean ====
section
/-! DEFINITION. LDI, PRN and HLT (44_load_print_halt.md). -/

namespace Sys2Proof.Machine

/-- LDI Ra, imm (R120). -/
def execLdi (a imm : Byte) (s : State) : Result :=
  let ir := opcodeOf (.ldi a imm)
  finish ir s do
    let ra ← regIdx a
    return (s.setReg ra (immediate imm)).advance ir

/-- PRN Ra (R121). -/
def execPrn (a : Byte) (s : State) : Result :=
  let ir := opcodeOf (.prn a)
  finish ir s do
    let ra ← regIdx a
    return (s.emit (s.reg ra)).advance ir

/-- HLT (R122). UNVERIFIED: pc ends one past the instruction by the spec's decision D19 (log entry 19). -/
def execHlt (s : State) : Result :=
  let ir := opcodeOf .hlt
  finish ir s (.ok ((s.advance ir).setStatus .halted))

end Sys2Proof.Machine
end

