-- ==== Sys2Proof/Machine/Stack.lean ====
section
/-! DEFINITION. PUSH and POP (42_stack.md). -/

namespace Sys2Proof.Machine

/-- PUSH Ra: the register is read after the decrement, so PUSH R7 pushes the decremented value (R95). -/
def execPush (a : Byte) (s : State) : Result :=
  let ir := opcodeOf (.push a)
  finish ir s do
    let ra ← regIdx a
    let t ← pushByte s (fun s1 => s1.reg ra)
    return t.advance ir

/-- POP Ra: the register is written first and the increment applies to register 7 as it then stands, so POP R7 leaves
the popped byte plus 1 (R96). -/
def execPop (a : Byte) (s : State) : Result :=
  let ir := opcodeOf (.pop a)
  finish ir s do
    let ra ← regIdx a
    let v ← topByte s
    let s1 := s.setReg ra v
    let sp ← spAfter (s1.reg Config.SP)
    return (s1.setReg Config.SP sp).advance ir

end Sys2Proof.Machine
end

