-- ==== Sys2Proof/Machine/Fetch.lean ====
section
/-! DEFINITION. Fetching the three bytes of a step (40_loop.md R71). -/

namespace Sys2Proof.Machine

/-- A fetch read that failed: the fault, and the opcode byte if it had been read (60_exceptions.md R140). -/
abbrev FetchFault := FaultInfo × Option Byte

/-- Attach to a fetch read's fault the opcode byte read so far. -/
def fetchRead (s : State) (a : Int) (ir : Option Byte) : Except FetchFault Byte :=
  match memRead s a with
  | .ok v => .ok v
  | .error f => .error (f, ir)

/-- `ir`, `opa`, `opb` at pc0, pc0 + 1, pc0 + 2, read in that order, each bounds-checked, whatever the instruction's
length; nothing wraps (40_loop.md R71, 20_memory.md R33). UNVERIFIED: the spec's decisions D4 and D5 (log entries 6, 7). -/
def fetch (s : State) : Except FetchFault (Byte × Byte × Byte) := do
  let pc0 : Int := s.pc.toNat
  let ir ← fetchRead s pc0 none
  let opa ← fetchRead s (pc0 + 1) (some ir)
  let opb ← fetchRead s (pc0 + 2) (some ir)
  return (ir, opa, opb)

end Sys2Proof.Machine
end

