-- ==== Sys2Proof/Machine/Cycle.lean ====
section
/-! DEFINITION. The fetch-decode-execute step (40_loop.md R70 to R73). -/

namespace Sys2Proof.Machine

/-- Fetch, decode, execute; a fetch or decode fault is taken in the state as it stands (R73, 60_exceptions.md R138). -/
def runOne (s : State) : Result :=
  match fetch s with
  | .error (f, ir) => raiseFault f ir s
  | .ok (ir, opa, opb) =>
    match decode ir opa opb with
    | .error e => raiseFault (faultOfReject e) (some ir) s
    | .ok i => exec i s

/-- One step: defined only while Running (R70); from Halted and Faulted there is none, which is said by name. -/
def cycle (s : State) : Result :=
  match s.status with
  | .running => runOne s
  | .halted => .fault .noStepHalted
  | .faulted r => .fault (.noStepFaulted r)

end Sys2Proof.Machine
end

