-- ==== Sys2Proof/Machine/Session.lean ====
section
/-! DEFINITION. What the surroundings do before a run: load memory (10_state.md R28, 70_reset_and_hazards.md R160). -/

namespace Sys2Proof.Machine

/-- The loader's `write(address, byte)`; an address above 255 is no cell, and nothing is written (10_state.md R28). -/
def loadByte (s : State) (a : Nat) (v : Byte) : State :=
  if a < Config.memSize then { s with mem := putCell s.mem a v } else s

/-- Load bytes at successive addresses (70_reset_and_hazards.md R160). -/
def loadFrom (s : State) (a : Nat) : List Byte → State
  | [] => s
  | v :: vs => loadFrom (loadByte s a v) (a + 1) vs

/-- The launch state: the reset state with the image at address 0; an image of more than 256 bytes has none
(70_reset_and_hazards.md R160, R166; 93_implementation_defined.md P10). UNVERIFIED: decision D16 (log entry 16). -/
def launch (image : List Byte) : Option State :=
  if image.length ≤ Config.memSize then some (loadFrom State.reset 0 image) else none

/-- Store three bytes where the next step fetches. -/
def placeAtPc (s : State) (b : Byte × Byte × Byte) : State := loadFrom s s.pc.toNat [b.1, b.2.1, b.2.2]

end Sys2Proof.Machine
end

