-- ==== Sys2Proof/Machine/Step.lean ====
section
/-! DEFINITION. The step of the machine, and the placing of one instruction where it fetches. -/

namespace Sys2Proof.Machine

/-- One step (40_loop.md R70, R73). -/
def step (s : State) : Host.Outcome State Fault Refusal := cycle s

/-- `s` with the instruction of a table word stored at the program counter, so that a running machine whose pc is at most
253 fetches it next. Only memory changes. It stands for the loader (log entry 20). -/
def State.withFetchWord (s : State) (nbits w : Nat) : State := placeAtPc s (tableWordBytes nbits w)

end Sys2Proof.Machine
end

