-- ==== Sys2Proof/Safety.lean ====
section
/-! DEFINITION. The invariant of the machine's states, what a fault record may say, and the relations that frames are
stated with. -/

namespace Sys2Proof.Machine

/-- What a fault may record (60_exceptions.md R131, R132, R133, R140), `ir` being the opcode byte if one was fetched. -/
def FaultInfo.Legal (ir : Option Byte) : FaultInfo → Prop
  | .memoryFault (.address a) => a = 256 ∨ (a = -1 ∧ ir ≠ none)
  | .memoryFault (.registerIndex o) => 8 ≤ o.toNat ∧ ir ≠ none
  | .memoryFault (.stackPointer v) => v = 256 ∧ ir ≠ none
  | .unsupportedAluOperation b =>
      ir = some b ∧ isAlu b = true ∧ b ∉ ([0xA0#8, 0xA2#8, 0xA7#8] : List Byte)
  | .unknownOpcode b =>
      ir = some b ∧ isAlu b = false ∧
        b ∉ ([0x82#8, 0x47#8, 0x01#8, 0x45#8, 0x46#8, 0x50#8, 0x11#8, 0x54#8, 0x55#8, 0x56#8] : List Byte)

/-- A legal fault record (60_exceptions.md R140): `ir` is absent exactly when the first fetch read faulted. -/
structure FaultRecord.Legal (r : FaultRecord) : Prop where
  info : r.info.Legal r.ir
  pc0  : r.pc0.toNat ≤ 256
  ir   : r.ir = none ↔ r.pc0.toNat = 256

/-- The invariant: memory in canonical form, pc in 0..256 (10_state.md R16), and a recorded fault that is legal and names
the address pc still holds (60_exceptions.md R140, R141). -/
structure State.Inv (s : State) : Prop where
  mem   : Memory.wf s.mem
  pc    : s.pc.toNat ≤ 256
  fault : ∀ r, s.status = .faulted r → r.Legal ∧ r.pc0 = s.pc

/-- An instruction at pc can be fetched (20_memory.md R33). -/
abbrev State.Fetchable (s : State) : Prop := s.pc.toNat ≤ 253

/-- `s` with a fault taken: the recorded status is the only difference (60_exceptions.md R139, R141). -/
def State.withFault (s : State) (f : FaultInfo) (ir : Option Byte) : State :=
  { s with status := .faulted { info := f, pc0 := s.pc, ir := ir } }

/-- The step at `s` fetches these three bytes (40_loop.md R71). -/
abbrev State.Fetches (s : State) (ir opa opb : Byte) : Prop :=
  memRead s s.pc.toNat = .ok ir ∧ memRead s (s.pc.toNat + 1) = .ok opa ∧ memRead s (s.pc.toNat + 2) = .ok opb

/-- The step at `s` runs the instruction `i`: it is fetched without fault and decodes to `i`. -/
def State.Runs (s : State) (i : Instr) : Prop :=
  ∃ ir opa opb, s.Fetches ir opa opb ∧ decode ir opa opb = .ok i

/-- The registers an instruction may write: the table of 10_state.md R11. -/
def MayWrite : Instr → Reg → Prop
  | .ldi a _, r => a.toNat = r.val
  | .prn _, _ => False
  | .hlt, _ => False
  | .add a _, r => a.toNat = r.val
  | .mul a _, r => a.toNat = r.val
  | .cmp _ _, r => r = Config.FL
  | .push _, r => r = Config.SP
  | .pop a, r => a.toNat = r.val ∨ r = Config.SP
  | .call _, r => r = Config.SP
  | .ret, r => r = Config.SP
  | .jmp _, _ => False
  | .jeq _, _ => False
  | .jne _, _ => False

/-- The instruction transfers control in `s` instead of falling through (10_state.md R17): a call, return or jump, or a
conditional jump whose predicate on the Equal bit holds. -/
def Transfers (s : State) : Instr → Prop
  | .ldi _ _ => False
  | .prn _ => False
  | .hlt => False
  | .add _ _ => False
  | .mul _ _ => False
  | .cmp _ _ => False
  | .push _ => False
  | .pop _ => False
  | .call _ => True
  | .ret => True
  | .jmp _ => True
  | .jeq _ => (s.reg Config.FL).getLsbD 0 = true
  | .jne _ => (s.reg Config.FL).getLsbD 0 = false

/-- The state did not end in a fault. -/
def State.NotFaulted (s : State) : Prop := ∀ r, s.status ≠ .faulted r

/-- `k` steps of the run from `s` (40_loop.md R76). -/
abbrev runSteps (k : Nat) (s : State) : Result := Host.Core.run Sys2Proof.core k s

/-- Every register outside the list is unchanged. -/
def SameRegsExcept (rs : List Reg) (s t : State) : Prop := ∀ r, r ∉ rs → t.reg r = s.reg r

/-- Every address reads as before. -/
def SameMemory (s t : State) : Prop := ∀ a : Int, memRead t a = memRead s a

/-- Every address but one reads as before. -/
def SameMemoryExcept (a0 : Int) (s t : State) : Prop := ∀ a : Int, a ≠ a0 → memRead t a = memRead s a

end Sys2Proof.Machine
end

