-- ==== Sys2Proof/Certificates/Slice0/Obligations.lean ====
section
/-! DEFINITION. The statements for the provers. A docstring names the rules a statement formalises; where a clause rests on
a decision the spec marks as its own (D<n>), or on a choice of this model, the docstring says so and names the log entry.
`a.toNat = ra.val` reads: the operand byte `a` is the index of register `ra` (10_state.md R12). -/

open Sys2Proof Sys2Proof.Machine

/-! ### Reset and launch -/

/-- R156: the two reset values the source gives; all three flag bits are clear at reset, and no CMP leaves that byte. -/
def Obligations.ResetStackPointerAndFlags : Prop :=
  State.reset.reg 7 = 0xF4#8 ∧ State.reset.reg 4 = 0#8 ∧
  State.reset.flagEqual = false ∧ State.reset.flagGreater = false ∧ State.reset.flagLess = false ∧
  ∀ (s t : State) (a b : Byte), a.toNat ≤ 7 → b.toNat ≤ 7 → exec (.cmp a b) s = .next t → t.reg 4 ≠ 0#8

/-- The rest of 70_reset_and_hazards.md section 1. The values of registers 0 to 3, 5 and 6, of pc and of memory are the
spec's decisions D3, D8 and D7 (log entries 3, 4, 5). -/
def Obligations.ResetRemainingState : Prop :=
  (∀ r : Reg, r ∈ ([0, 1, 2, 3, 5, 6] : List Reg) → State.reset.reg r = 0#8) ∧ State.reset.pc = 0#9 ∧
  (∀ a : Int, 0 ≤ a → a ≤ 255 → memRead State.reset a = .ok 0#8) ∧
  State.reset.status = .running ∧ State.reset.out = []

/-- Launch (70_reset_and_hazards.md section 1): an image of at most 256 bytes stands at address 0 up, every other cell
reads 0 (D7, log entry 5), nothing else differs from reset; a longer image has no launch state (D16, log entry 16). -/
def Obligations.LaunchHoldsImage : Prop :=
  ∀ image : List Byte,
    (image.length ≤ 256 → ∃ s, launch image = some s ∧
      (∀ k : Nat, k < 256 → memRead s k = .ok (image.getD k 0)) ∧ s.Inv ∧
      s.regs = State.reset.regs ∧ s.pc = State.reset.pc ∧ s.status = .running ∧ s.out = []) ∧
    (256 < image.length → launch image = none)

/-! ### The invariant -/

/-- The invariant holds at reset. Its memory form is the model's choice (log entry 22). -/
def Obligations.InvariantAtReset : Prop := State.reset.Inv

/-- Every step keeps the invariant, from every state that meets it: memory canonical, pc in 0..256, and a recorded fault
legal (60_exceptions.md sections 1 and 4) at the address pc holds. The canonical form is the model's choice (log entry 22);
the bounds and the record rest on D4, D6, D10, D17 and D18 (log entries 6, 8, 10, 17, 18). -/
def Obligations.StepKeepsInvariant : Prop :=
  ∀ s t : State, s.Inv → step s = .next t → t.Inv

/-! ### Encoding -/

/-- Decode and encode agree, in both directions, for every instruction and every operand byte: three fetched bytes decode
to `i` exactly when the encoding of `i` is what they begin with (30_encoding.md sections 1 and 3). The opcode values are
D1's (log entry 1). -/
def Obligations.DecodeIffEncodingFetched : Prop :=
  ∀ (i : Instr) (ir opa opb : Byte), decode ir opa opb = .ok i ↔ encode i <+: [ir, opa, opb]

/-- Words written out bit by bit from 30_encoding.md section 3, one or more of each family, and the first byte of
unloaded memory. The low nibbles are D1's (log entry 1). -/
def Obligations.SampleWordsDecode : Prop :=
  decode 0b10000010#8 0b00000000#8 0b00001000#8 = .ok (.ldi 0 8) ∧
  decode 0b01000111#8 0b00000011#8 0b11111111#8 = .ok (.prn 3) ∧
  decode 0b00000001#8 0b11111111#8 0b11111111#8 = .ok .hlt ∧
  decode 0b10100000#8 0b00000010#8 0b00000001#8 = .ok (.add 2 1) ∧
  decode 0b10100111#8 0b00000100#8 0b00001001#8 = .ok (.cmp 4 9) ∧
  decode 0b01000101#8 0b00000111#8 0b00000000#8 = .ok (.push 7) ∧
  decode 0b01010000#8 0b00000001#8 0b00000000#8 = .ok (.call 1) ∧
  decode 0b01010110#8 0b00000011#8 0b00000000#8 = .ok (.jne 3) ∧
  decode 0b00000000#8 0b00000000#8 0b00000000#8 = .error (.unknownOpcode 0#8)

/-- Illegal opcode bytes fall to the two rejections by bit 5, whatever the operand bytes are (30_encoding.md section 4;
D1 and D17, log entries 1 and 17). -/
def Obligations.IllegalOpcodesSplitByBitFive : Prop :=
  ∀ ir opa opb : Byte,
    (decode ir opa opb = .error (.unsupportedAluOperation ir) ↔
      ir.getLsbD 5 = true ∧ ir ≠ 0xA0#8 ∧ ir ≠ 0xA2#8 ∧ ir ≠ 0xA7#8) ∧
    (decode ir opa opb = .error (.unknownOpcode ir) ↔
      ir.getLsbD 5 = false ∧ ir ≠ 0x82#8 ∧ ir ≠ 0x47#8 ∧ ir ≠ 0x01#8 ∧ ir ≠ 0x45#8 ∧ ir ≠ 0x46#8 ∧ ir ≠ 0x50#8 ∧ ir ≠ 0x11#8 ∧
        ir ≠ 0x54#8 ∧ ir ≠ 0x55#8 ∧ ir ≠ 0x56#8)

/-- Fetched bytes the instruction does not own do not matter (30_encoding.md section 1, 40_loop.md R75): the count field
of the opcode byte says how many it owns. -/
def Obligations.UnownedOperandBytesIgnored : Prop :=
  ∀ (ir opa opb x y : Byte) (i : Instr), decode ir opa opb = .ok i →
    ((ir >>> 6).toNat = 1 → decode ir opa y = .ok i) ∧ ((ir >>> 6).toNat = 0 → decode ir x y = .ok i)

/-! ### The step -/

/-- From R70: a step is defined exactly while the status is Running, and is then one instruction or one fault. That from
Halted and Faulted there is none is said by a named fault, which is the model's choice (log entry 14). -/
def Obligations.StepDefinedExactlyWhileRunning : Prop :=
  ∀ s : State,
    (s.status = .running ↔ ∃ t, step s = .next t) ∧
    (s.status = .running →
      (∃ i, s.Runs i ∧ step s = exec i s) ∨ (∃ f ir, step s = raiseFault f ir s)) ∧
    (s.status = .halted → step s = .fault .noStepHalted) ∧
    (∀ r, s.status = .faulted r → step s = .fault (.noStepFaulted r))

/-- A step runs the decoded instruction: where the three bytes at pc begin with the encoding of `i`, the step is `exec i`
at the same state, with nothing added around it (40_loop.md section on R71 to R73). -/
def Obligations.StepRunsDecodedInstruction : Prop :=
  ∀ (s : State) (i : Instr) (ir opa opb : Byte), s.status = .running → s.Fetches ir opa opb →
    (encode i <+: [ir, opa, opb] ∨ decode ir opa opb = .ok i) → step s = exec i s

/-- The three fetch reads succeed exactly when pc is at most 253; at 254, 255 and 256 the step takes MemoryFault(Address,
256) whatever byte is there, recording the opcode byte if it was read (20_memory.md R33, 40_loop.md R71; D4, D5, D10,
D18, log entries 6, 7, 10, 18). -/
def Obligations.FetchFaultsAboveTwoFiveThree : Prop :=
  ∀ s : State,
    (s.pc.toNat ≤ 253 ↔ ∃ ir opa opb, s.Fetches ir opa opb) ∧
    (s.status = .running → ∀ ir, s.pc.toNat = 254 ∨ s.pc.toNat = 255 → memRead s s.pc.toNat = .ok ir →
      step s = .next (s.withFault (.memoryFault (.address 256)) (some ir))) ∧
    (s.status = .running → s.pc.toNat = 256 →
      step s = .next (s.withFault (.memoryFault (.address 256)) none))

/-- An illegal opcode byte is faulted at decode, before its operands are looked at, and nothing but the status changes
(60_exceptions.md R132, R133, R138; D17, D10, D18, log entries 17, 10, 18). -/
def Obligations.IllegalOpcodeFaults : Prop :=
  ∀ (s : State) (ir opa opb : Byte), s.status = .running → s.Fetches ir opa opb →
    (ir.getLsbD 5 = true → ir ≠ 0xA0#8 → ir ≠ 0xA2#8 → ir ≠ 0xA7#8 →
      step s = .next (s.withFault (.unsupportedAluOperation ir) (some ir))) ∧
    (ir.getLsbD 5 = false → ir ∉ ([0x82#8, 0x47#8, 0x01#8, 0x45#8, 0x46#8, 0x50#8, 0x11#8, 0x54#8, 0x55#8, 0x56#8] : List Byte) →
      step s = .next (s.withFault (.unknownOpcode ir) (some ir)))

/-- R25: the status is Running at reset; Halted is reached only by, and always by, an HLT; Faulted only by a raise; from
neither is there a step. -/
def Obligations.StatusTransitions : Prop :=
  State.reset.status = .running ∧
  ∀ s t : State, step s = .next t →
    s.status = .running ∧ (t.status = .halted ↔ s.Runs .hlt) ∧
    (∀ r, t.status = .faulted r → ∃ f ir, step s = raiseFault f ir s)

/-- Faults are precise: a step that ends in a fault changes the status and nothing else, and its record names pc and the
byte fetched there, or no byte if none was (60_exceptions.md section 4; D10, D18, log entries 10, 18). -/
def Obligations.FaultsArePrecise : Prop :=
  ∀ (s t : State) (r : FaultRecord), step s = .next t → t.status = .faulted r →
    t.regs = s.regs ∧ t.pc = s.pc ∧ t.mem = s.mem ∧ t.out = s.out ∧ r.pc0 = s.pc ∧
    (∀ b, r.ir = some b ↔ memRead s s.pc.toNat = .ok b)

/-! ### Whole-machine frames -/

/-- A step writes only the registers the table of 10_state.md R11 gives the instruction it runs. -/
def Obligations.StepWritesOnlyNamedRegisters : Prop :=
  ∀ (s t : State) (r : Reg), step s = .next t → t.reg r ≠ s.reg r → ∃ i, s.Runs i ∧ MayWrite i r

/-- Memory changes only by PUSH and CALL, and only at the decremented stack pointer (20_memory.md R32, 42_stack.md R100). -/
def Obligations.MemoryChangesOnlyByPushes : Prop :=
  ∀ (s t : State) (a : Int), step s = .next t → memRead t a ≠ memRead s a →
    (∃ o, s.Runs (.push o) ∨ s.Runs (.call o)) ∧ a = ((s.reg 7).toNat : Int) - 1

/-- OUT grows only by PRN, by the one byte of the register it names (10_state.md R27; D12, log entry 12). -/
def Obligations.OutputGrowsOnlyByPrn : Prop :=
  ∀ s t : State, step s = .next t → t.out ≠ s.out →
    ∃ (o : Byte) (ro : Reg), o.toNat = ro.val ∧ s.Runs (.prn o) ∧ t.out = s.out ++ [s.reg ro]

/-- A byte emitted is never taken back, by a fault or otherwise, however long the run goes on (10_state.md R27; D12, log
entry 12). -/
def Obligations.OutputNeverTakenBack : Prop :=
  ∀ (k : Nat) (s t : State), runSteps k s = .next t → s.out <+: t.out

/-- No instruction reads OUT (10_state.md R27): a step from a state that differs only in OUT ends alike in all else. -/
def Obligations.OutputIsNeverRead : Prop :=
  ∀ (s t : State) (o : List Byte), step s = .next t →
    ∃ u, step { s with out := o } = .next u ∧
      u.regs = t.regs ∧ u.pc = t.pc ∧ u.mem = t.mem ∧ u.status = t.status

/-- pc advances by operand count plus one unless the instruction is a call, a return, a jump or a taken branch (10_state.md
R17, 40_loop.md R74). -/
def Obligations.PcAdvancesUnlessTransfer : Prop :=
  ∀ (s t : State) (ir opa opb : Byte) (i : Instr), s.Fetches ir opa opb → decode ir opa opb = .ok i →
    step s = .next t → t.NotFaulted → ¬ Transfers s i →
    t.pc.toNat = s.pc.toNat + (ir >>> 6).toNat + 1

/-! ### Memory -/

/-- From R30 and R31: an address in 0..255 reads as its byte and is writable, changing no other cell and nothing else; an
address outside raises MemoryFault(Address, a) for both. That memory stays canonical is about the model's own
representation (DESIGN CHOICE, log entry 22). -/
def Obligations.MemoryReadAndWrite : Prop :=
  ∀ (s : State) (a : Int) (v : Byte), Memory.wf s.mem →
    (0 ≤ a → a ≤ 255 → (∃ b, memRead s a = .ok b) ∧
      ∃ t, memWrite s a v = .ok t ∧ memRead t a = .ok v ∧ SameMemoryExcept a s t ∧ Memory.wf t.mem ∧
        t.regs = s.regs ∧ t.pc = s.pc ∧ t.status = s.status ∧ t.out = s.out) ∧
    (a < 0 ∨ 255 < a →
      memRead s a = .error (.memoryFault (.address a)) ∧ memWrite s a v = .error (.memoryFault (.address a)))

/-- A byte pushed is seen by every later fetch of its address while memory stays as the push left it: as an opcode or as
either operand byte (20_memory.md R45, 70_reset_and_hazards.md R168). -/
def Obligations.PushedByteIsFetched : Prop :=
  ∀ (s t u : State) (o sp ir opa opb : Byte) (ro : Reg), Memory.wf s.mem → o.toNat = ro.val →
    pushAddress s = .ok sp → exec (.push o) s = .next t → u.mem = t.mem → u.Fetches ir opa opb →
    (u.pc.toNat = sp.toNat → ir = if ro = 7 then sp else s.reg ro) ∧
    (u.pc.toNat + 1 = sp.toNat → opa = if ro = 7 then sp else s.reg ro) ∧
    (u.pc.toNat + 2 = sp.toNat → opb = if ro = 7 then sp else s.reg ro)

/-! ### Load, print, halt -/

/-- LDI completes with the immediate in the named register, whichever it is (none is hardwired: 10_state.md R10, R22), and
changes no other register, no memory, no output (44_load_print_halt.md R120, which the spec recovers from examples). -/
def Obligations.LdiLoadsImmediate : Prop :=
  ∀ (s : State) (a imm : Byte) (ra : Reg), a.toNat = ra.val → s.Fetchable →
    ∃ t, exec (.ldi a imm) s = .next t ∧ t.reg ra = imm ∧ SameRegsExcept [ra] s t ∧ SameMemory s t ∧
      t.out = s.out ∧ t.status = s.status ∧ t.pc.toNat = s.pc.toNat + 3

/-- PRN completes by appending the register's byte to OUT and changes no register and no memory (44_load_print_halt.md
R121; D12, log entry 12). -/
def Obligations.PrnEmitsRegister : Prop :=
  ∀ (s : State) (a : Byte) (ra : Reg), a.toNat = ra.val → s.Fetchable →
    ∃ t, exec (.prn a) s = .next t ∧ t.out = s.out ++ [s.reg ra] ∧ t.regs = s.regs ∧ SameMemory s t ∧
      t.status = s.status ∧ t.pc.toNat = s.pc.toNat + 2

/-- HLT completes with status Halted and pc one past it (44_load_print_halt.md R122; the pc is D19's, log entry 19). -/
def Obligations.HltHalts : Prop :=
  ∀ s : State, s.Fetchable →
    ∃ t, exec .hlt s = .next t ∧ t.status = .halted ∧ t.regs = s.regs ∧ SameMemory s t ∧ t.out = s.out ∧
      t.pc.toNat = s.pc.toNat + 1

/-! ### ALU -/

/-- R86: ADD and MUL complete with the exact sum and product mod 256 and no flag, fault or high half; read as signed bytes
the patterns agree; adding 256 - k subtracts k mod 256; times zero is zero; the ALU has no operation beside ADD, MUL and
CMP, and CMP compares unsigned only. Nothing but the left register and pc changes. -/
def Obligations.AddAndMulAreExactModulo : Prop :=
  (∀ (s : State) (a b : Byte) (ra rb : Reg), a.toNat = ra.val → b.toNat = rb.val → s.Fetchable →
    (∃ t, exec (.add a b) s = .next t ∧
      (t.reg ra).toNat = ((s.reg ra).toNat + (s.reg rb).toNat) % 256 ∧
      (t.reg ra).toInt = ((s.reg ra).toInt + (s.reg rb).toInt).bmod 256 ∧
      (∀ k : Nat, k ≤ 256 → (s.reg rb).toNat = (256 - k) % 256 →
        ((t.reg ra).toNat : Int) = (((s.reg ra).toNat : Int) - k) % 256) ∧
      SameRegsExcept [ra] s t ∧ SameMemory s t ∧ t.out = s.out ∧ t.status = s.status ∧
      t.pc.toNat = s.pc.toNat + 3) ∧
    (∃ t, exec (.mul a b) s = .next t ∧
      (t.reg ra).toNat = ((s.reg ra).toNat * (s.reg rb).toNat) % 256 ∧
      (t.reg ra).toInt = ((s.reg ra).toInt * (s.reg rb).toInt).bmod 256 ∧
      (s.reg rb = 0#8 → t.reg ra = 0#8) ∧
      SameRegsExcept [ra] s t ∧ SameMemory s t ∧ t.out = s.out ∧ t.status = s.status ∧
      t.pc.toNat = s.pc.toNat + 3)) ∧
  (∀ (ir opa opb : Byte) (i : Instr), ir.getLsbD 5 = true → decode ir opa opb = .ok i →
    i = .add opa opb ∨ i = .mul opa opb ∨ i = .cmp opa opb) ∧
  (∀ (s t : State) (a b : Byte) (ra rb : Reg), a.toNat = ra.val → b.toNat = rb.val → exec (.cmp a b) s = .next t →
    (t.flagLess = true ↔ (s.reg ra).toNat < (s.reg rb).toNat) ∧
    (t.flagGreater = true ↔ (s.reg ra).toNat > (s.reg rb).toNat))

/-- CMP completes by overwriting the whole flags byte with exactly one of 0x01, 0x02, 0x04 for the unsigned relation of the
two registers as they were BEFORE, register 4 among them, and changes no other register (41_alu.md R89, R90; that the
flags are register 4 is D2, log entry 2). -/
def Obligations.CmpSetsExactlyOneFlag : Prop :=
  ∀ (s : State) (a b : Byte) (ra rb : Reg), a.toNat = ra.val → b.toNat = rb.val → s.Fetchable →
    ∃ t, exec (.cmp a b) s = .next t ∧
      ((s.reg ra).toNat = (s.reg rb).toNat → t.reg 4 = 0x01#8) ∧
      ((s.reg ra).toNat > (s.reg rb).toNat → t.reg 4 = 0x02#8) ∧
      ((s.reg ra).toNat < (s.reg rb).toNat → t.reg 4 = 0x04#8) ∧
      SameRegsExcept [4] s t ∧ SameMemory s t ∧ t.out = s.out ∧ t.status = s.status ∧
      t.pc.toNat = s.pc.toNat + 3

/-! ### Stack -/

/-- PUSH completes while the stack pointer is not 0: it is decremented, the byte lands at the new value, and no other cell
or register changes; PUSH R7 stores the decremented stack pointer (42_stack.md R95, R97). -/
def Obligations.PushStoresBelowStackPointer : Prop :=
  ∀ (s : State) (a : Byte) (ra : Reg), a.toNat = ra.val → s.Fetchable → Memory.wf s.mem → s.reg 7 ≠ 0#8 →
    ∃ sp t, pushAddress s = .ok sp ∧ sp.toNat + 1 = (s.reg 7).toNat ∧ exec (.push a) s = .next t ∧
      t.reg 7 = sp ∧ SameRegsExcept [7] s t ∧
      memRead t (byteInt sp) = .ok (if ra = 7 then sp else s.reg ra) ∧ SameMemoryExcept (byteInt sp) s t ∧
      t.out = s.out ∧ t.status = s.status ∧ t.pc.toNat = s.pc.toNat + 2

/-- POP completes with the byte at the stack pointer in the named register and the stack pointer incremented; POP R7 leaves
the popped byte plus 1; the cell keeps its value (42_stack.md R96, R97). The bound at 255 is D6's (log entry 8). -/
def Obligations.PopLoadsFromStackPointer : Prop :=
  ∀ (s : State) (a v : Byte) (ra : Reg), a.toNat = ra.val → s.Fetchable →
    memRead s (byteInt (s.reg 7)) = .ok v →
    (ra ≠ 7 → s.reg 7 ≠ 0xFF#8 →
      ∃ t, exec (.pop a) s = .next t ∧ t.reg ra = v ∧ (t.reg 7).toNat = (s.reg 7).toNat + 1 ∧
        SameRegsExcept [ra, 7] s t ∧ SameMemory s t ∧ t.out = s.out ∧ t.status = s.status ∧
        t.pc.toNat = s.pc.toNat + 2) ∧
    (ra = 7 → v ≠ 0xFF#8 →
      ∃ t, exec (.pop a) s = .next t ∧ (t.reg 7).toNat = v.toNat + 1 ∧
        SameRegsExcept [7] s t ∧ SameMemory s t ∧ t.out = s.out ∧ t.status = s.status ∧
        t.pc.toNat = s.pc.toNat + 2)

/-- PUSH then POP carries the value across and restores the stack pointer, for every pair of registers but 7 (42_stack.md
R99). -/
def Obligations.PushPopRoundTrip : Prop :=
  ∀ (s : State) (a b : Byte) (ra rb : Reg), a.toNat = ra.val → b.toNat = rb.val → ra ≠ 7 → rb ≠ 7 →
    Memory.wf s.mem → s.reg 7 ≠ 0#8 →
    ∃ t u, exec (.push a) s = .next t ∧ exec (.pop b) t = .next u ∧ u.status = s.status ∧
      u.reg rb = s.reg ra ∧ u.reg 7 = s.reg 7 ∧ SameRegsExcept [rb] s u

/-! ### Control flow -/

/-- CALL completes while the stack pointer is not 0: it pushes the address after itself and jumps to the register as read
after the decrement, so CALL R7 jumps to the byte it pushed (43_control_flow.md R105). -/
def Obligations.CallPushesReturnAddress : Prop :=
  ∀ (s : State) (a : Byte) (ra : Reg), a.toNat = ra.val → s.Fetchable → Memory.wf s.mem → s.reg 7 ≠ 0#8 →
    ∃ sp back t, pushAddress s = .ok sp ∧ sp.toNat + 1 = (s.reg 7).toNat ∧ back.toNat = s.pc.toNat + 2 ∧
      exec (.call a) s = .next t ∧ t.pc.toNat = (if ra = 7 then sp else s.reg ra).toNat ∧
      t.reg 7 = sp ∧ SameRegsExcept [7] s t ∧
      memRead t (byteInt sp) = .ok back ∧ SameMemoryExcept (byteInt sp) s t ∧
      t.out = s.out ∧ t.status = s.status

/-- RET completes while the stack pointer is not 0xFF: it pops the byte on top into pc, whatever pushed it
(43_control_flow.md R106; the bound is D6's, log entry 8). -/
def Obligations.RetPopsProgramCounter : Prop :=
  ∀ (s : State) (v : Byte), memRead s (byteInt (s.reg 7)) = .ok v → s.reg 7 ≠ 0xFF#8 →
    ∃ t, exec .ret s = .next t ∧ t.pc.toNat = v.toNat ∧ (t.reg 7).toNat = (s.reg 7).toNat + 1 ∧
      SameRegsExcept [7] s t ∧ SameMemory s t ∧ t.out = s.out ∧ t.status = s.status

/-- CALL, then anything that leaves the stack pointer and the top cell as the CALL left them, then RET: pc is the address
after the CALL and the stack pointer is what it was before it (43_control_flow.md R112). -/
def Obligations.CallRetRoundTrip : Prop :=
  ∀ (s t u : State) (a : Byte) (ra : Reg), a.toNat = ra.val → s.Fetchable → Memory.wf s.mem → s.reg 7 ≠ 0#8 →
    exec (.call a) s = .next t → u.reg 7 = t.reg 7 →
    memRead u (byteInt (t.reg 7)) = memRead t (byteInt (t.reg 7)) →
    ∃ v, exec .ret u = .next v ∧ v.status = u.status ∧ v.pc.toNat = s.pc.toNat + 2 ∧ v.reg 7 = s.reg 7

/-- JMP completes with pc at the register's byte, any of 0..255, and changes nothing else (43_control_flow.md R107, R110). -/
def Obligations.JmpGoesToRegister : Prop :=
  ∀ (s : State) (a : Byte) (ra : Reg), a.toNat = ra.val →
    ∃ t, exec (.jmp a) s = .next t ∧ t.pc.toNat = (s.reg ra).toNat ∧ t.regs = s.regs ∧ SameMemory s t ∧
      t.out = s.out ∧ t.status = s.status

/-- JEQ completes: taken if bit 0 of register 4 is set, otherwise on to the next instruction, then for ANY operand byte
(43_control_flow.md R108, R113; D2 and D11, log entries 2 and 11). Nothing but pc changes. -/
def Obligations.JeqTakenIffEqualBit : Prop :=
  ∀ (s : State) (a : Byte),
    (∀ ra : Reg, (s.reg 4).getLsbD 0 = true → a.toNat = ra.val →
      ∃ t, exec (.jeq a) s = .next t ∧ t.pc.toNat = (s.reg ra).toNat ∧ t.regs = s.regs ∧ SameMemory s t ∧
        t.out = s.out ∧ t.status = s.status) ∧
    ((s.reg 4).getLsbD 0 = false → s.Fetchable →
      ∃ t, exec (.jeq a) s = .next t ∧ t.pc.toNat = s.pc.toNat + 2 ∧ t.regs = s.regs ∧ SameMemory s t ∧
        t.out = s.out ∧ t.status = s.status)

/-- JNE completes: taken if bit 0 of register 4 is clear, otherwise on to the next instruction, then for ANY operand byte
(43_control_flow.md R109, R113; D2 and D11, log entries 2 and 11). Nothing but pc changes. -/
def Obligations.JneTakenIffEqualBitClear : Prop :=
  ∀ (s : State) (a : Byte),
    (∀ ra : Reg, (s.reg 4).getLsbD 0 = false → a.toNat = ra.val →
      ∃ t, exec (.jne a) s = .next t ∧ t.pc.toNat = (s.reg ra).toNat ∧ t.regs = s.regs ∧ SameMemory s t ∧
        t.out = s.out ∧ t.status = s.status) ∧
    ((s.reg 4).getLsbD 0 = true → s.Fetchable →
      ∃ t, exec (.jne a) s = .next t ∧ t.pc.toNat = s.pc.toNat + 2 ∧ t.regs = s.regs ∧ SameMemory s t ∧
        t.out = s.out ∧ t.status = s.status)

/-- After a CMP, JEQ is taken exactly when the compared registers were equal and JNE exactly when they were not: one of the
two always, never both (43_control_flow.md R113; D2, log entry 2). -/
def Obligations.BranchAfterCmpFollowsComparison : Prop :=
  ∀ (s t : State) (a b c : Byte) (ra rb rc : Reg), a.toNat = ra.val → b.toNat = rb.val → c.toNat = rc.val →
    exec (.cmp a b) s = .next t → t.Fetchable →
    ∃ u v, exec (.jeq c) t = .next u ∧ exec (.jne c) t = .next v ∧
      u.pc.toNat = (if s.reg ra = s.reg rb then (t.reg rc).toNat else t.pc.toNat + 2) ∧
      v.pc.toNat = (if s.reg ra = s.reg rb then t.pc.toNat + 2 else (t.reg rc).toNat)

/-- A JMP to its own address is a step to the same state, however often it is taken (43_control_flow.md R107, 40_loop.md
R76). -/
def Obligations.JumpToSelfNeverEnds : Prop :=
  ∀ (s : State) (a : Byte) (ra : Reg), s.status = .running → s.Runs (.jmp a) → a.toNat = ra.val →
    (s.reg ra).toNat = s.pc.toNat → ∀ k : Nat, runSteps k s = .next s

/-! ### Faults inside an instruction -/

/-- An operand byte above 7 used as a register index faults with that byte, before any other check of the instruction, and
nothing else changes; for JEQ and JNE, only if the jump is taken (10_state.md R12, 60_exceptions.md R131, R138; opcode
bytes D1, order D9, record D10, D11, precision D18: log entries 1, 9, 10, 11, 18). -/
def Obligations.RegisterOperandAboveSevenFaults : Prop :=
  ∀ (s : State) (o x : Byte), 8 ≤ o.toNat →
    exec (.ldi o x) s = .next (s.withFault (.memoryFault (.registerIndex o)) (some 0x82#8)) ∧
    exec (.prn o) s = .next (s.withFault (.memoryFault (.registerIndex o)) (some 0x47#8)) ∧
    exec (.push o) s = .next (s.withFault (.memoryFault (.registerIndex o)) (some 0x45#8)) ∧
    exec (.pop o) s = .next (s.withFault (.memoryFault (.registerIndex o)) (some 0x46#8)) ∧
    exec (.call o) s = .next (s.withFault (.memoryFault (.registerIndex o)) (some 0x50#8)) ∧
    exec (.jmp o) s = .next (s.withFault (.memoryFault (.registerIndex o)) (some 0x54#8)) ∧
    ((s.reg 4).getLsbD 0 = true →
      exec (.jeq o) s = .next (s.withFault (.memoryFault (.registerIndex o)) (some 0x55#8))) ∧
    ((s.reg 4).getLsbD 0 = false →
      exec (.jne o) s = .next (s.withFault (.memoryFault (.registerIndex o)) (some 0x56#8)))

/-- ADD, MUL and CMP check the left operand first, then the right; the first above 7 is the one reported (41_alu.md R91;
D1, D9, D10, D18: log entries 1, 9, 10, 18). -/
def Obligations.AluOperandsCheckedLeftFirst : Prop :=
  ∀ (s : State) (a b o : Byte), 8 ≤ o.toNat → (a = o ∨ (a.toNat ≤ 7 ∧ b = o)) →
    exec (.add a b) s = .next (s.withFault (.memoryFault (.registerIndex o)) (some 0xA0#8)) ∧
    exec (.mul a b) s = .next (s.withFault (.memoryFault (.registerIndex o)) (some 0xA2#8)) ∧
    exec (.cmp a b) s = .next (s.withFault (.memoryFault (.registerIndex o)) (some 0xA7#8))

/-- The stack pointer never leaves 0..255: a push at 0 faults with Address -1, a pop that would leave 256 with StackPointer
256, and nothing else changes (10_state.md R14, 42_stack.md R98, 43_control_flow.md R105, R106; D1, D6, D10, D18: log
entries 1, 8, 10, 18). -/
def Obligations.StackPointerRangeFaults : Prop :=
  ∀ (s : State) (a : Byte), a.toNat ≤ 7 →
    (s.reg 7 = 0#8 →
      exec (.push a) s = .next (s.withFault (.memoryFault (.address (-1))) (some 0x45#8)) ∧
      exec (.call a) s = .next (s.withFault (.memoryFault (.address (-1))) (some 0x50#8))) ∧
    (a ≠ 7 → s.reg 7 = 0xFF#8 →
      exec (.pop a) s = .next (s.withFault (.memoryFault (.stackPointer 256)) (some 0x46#8))) ∧
    (memRead s (byteInt (s.reg 7)) = .ok 0xFF#8 →
      exec (.pop 7) s = .next (s.withFault (.memoryFault (.stackPointer 256)) (some 0x46#8))) ∧
    (s.reg 7 = 0xFF#8 →
      exec .ret s = .next (s.withFault (.memoryFault (.stackPointer 256)) (some 0x11#8)))

/-! ### Runs -/

/-- From R76: a run goes on, step by step, while the status is Running, and if it ends it does so Halted, its last step having
run an HLT, or Faulted, its last step having raised a fault; it may also never end: a JMP to itself runs for ever. That
the run has no further step is said by named faults, which are the model's choice (log entry 14). -/
def Obligations.RunEndsHaltedOrFaulted : Prop :=
  (∀ (s : State) (k : Nat), s.status = .running → (∃ t, runSteps k s = .next t) ∨
    ∃ j u t, j + 1 < k ∧ runSteps j s = .next u ∧ step u = .next t ∧
      ((u.Runs .hlt ∧ t.status = .halted ∧ runSteps k s = .fault .noStepHalted) ∨
       (∃ f ir r, step u = raiseFault f ir u ∧ t.status = .faulted r ∧ runSteps k s = .fault (.noStepFaulted r)))) ∧
  ∃ (s : State) (a : Byte), s.Inv ∧ s.status = .running ∧ s.Runs (.jmp a) ∧ ∀ k, runSteps k s = .next s

/-- R172: termination is not guaranteed, and the output of a run that does not end may grow for ever; such a run repeats a
state of registers, pc and memory. -/
def Obligations.EndlessRunRepeatsState : Prop :=
  (∃ s : State, s.Inv ∧ s.status = .running ∧ ∀ k, ∃ t, runSteps k s = .next t ∧ k ≤ 2 * t.out.length) ∧
  ∀ s : State, s.Inv → (∀ k, ∃ t, runSteps k s = .next t) →
    ∃ i j t u, i < j ∧ runSteps i s = .next t ∧ runSteps j s = .next u ∧
      t.regs = u.regs ∧ t.pc = u.pc ∧ t.mem = u.mem
end

