-- ==== Sys2Proof/Laws/State.lean ====
section
/-! SUPPORT. One lemma per field per update of State, so that no proof unfolds a record update. -/

namespace Sys2Proof.Machine

variable (s : State) (r : Reg) (v : Byte) (p : Pc) (st : Status) (ir : Byte) (f : FaultInfo) (o : Option Byte)

/-! ### setReg -/

@[simp] theorem setReg_pc : (s.setReg r v).pc = s.pc := rfl
@[simp] theorem setReg_mem : (s.setReg r v).mem = s.mem := rfl
@[simp] theorem setReg_status : (s.setReg r v).status = s.status := rfl
@[simp] theorem setReg_out : (s.setReg r v).out = s.out := rfl

/-- A write is read back from the register written and from no other (10_state.md R10). -/
theorem setReg_reg (q : Reg) : (s.setReg r v).reg q = if q = r then v else s.reg q := by
  unfold State.reg State.setReg
  simp only [Fin.getElem_fin, Vector.getElem_set]
  by_cases h : q = r
  · simp [h]
  · rw [if_neg h, if_neg (fun e => h (Fin.ext e.symm))]

@[simp] theorem setReg_reg_self : (s.setReg r v).reg r = v := by simp [setReg_reg]

theorem setReg_reg_of_ne {q : Reg} (h : q ≠ r) : (s.setReg r v).reg q = s.reg q := by simp [setReg_reg, h]

/-- A register's value depends on the register file alone. -/
theorem reg_congr {s t : State} (h : t.regs = s.regs) (r : Reg) : t.reg r = s.reg r := by
  unfold State.reg
  rw [h]

/-! ### setPc and advance -/

@[simp] theorem setPc_regs : (s.setPc p).regs = s.regs := rfl
@[simp] theorem setPc_reg : (s.setPc p).reg r = s.reg r := rfl
@[simp] theorem setPc_pc : (s.setPc p).pc = p := rfl
@[simp] theorem setPc_mem : (s.setPc p).mem = s.mem := rfl
@[simp] theorem setPc_status : (s.setPc p).status = s.status := rfl
@[simp] theorem setPc_out : (s.setPc p).out = s.out := rfl

@[simp] theorem advance_regs : (s.advance ir).regs = s.regs := rfl
@[simp] theorem advance_reg : (s.advance ir).reg r = s.reg r := rfl
@[simp] theorem advance_pc : (s.advance ir).pc = nextPc s.pc ir := rfl
@[simp] theorem advance_mem : (s.advance ir).mem = s.mem := rfl
@[simp] theorem advance_status : (s.advance ir).status = s.status := rfl
@[simp] theorem advance_out : (s.advance ir).out = s.out := rfl

/-! ### setStatus and emit -/

@[simp] theorem setStatus_regs : (s.setStatus st).regs = s.regs := rfl
@[simp] theorem setStatus_reg : (s.setStatus st).reg r = s.reg r := rfl
@[simp] theorem setStatus_pc : (s.setStatus st).pc = s.pc := rfl
@[simp] theorem setStatus_mem : (s.setStatus st).mem = s.mem := rfl
@[simp] theorem setStatus_status : (s.setStatus st).status = st := rfl
@[simp] theorem setStatus_out : (s.setStatus st).out = s.out := rfl

@[simp] theorem emit_regs : (s.emit v).regs = s.regs := rfl
@[simp] theorem emit_reg : (s.emit v).reg r = s.reg r := rfl
@[simp] theorem emit_pc : (s.emit v).pc = s.pc := rfl
@[simp] theorem emit_mem : (s.emit v).mem = s.mem := rfl
@[simp] theorem emit_status : (s.emit v).status = s.status := rfl
@[simp] theorem emit_out : (s.emit v).out = s.out ++ [v] := rfl

/-! ### withFault -/

@[simp] theorem withFault_regs : (s.withFault f o).regs = s.regs := rfl
@[simp] theorem withFault_reg : (s.withFault f o).reg r = s.reg r := rfl
@[simp] theorem withFault_pc : (s.withFault f o).pc = s.pc := rfl
@[simp] theorem withFault_mem : (s.withFault f o).mem = s.mem := rfl
@[simp] theorem withFault_out : (s.withFault f o).out = s.out := rfl
@[simp] theorem withFault_status :
    (s.withFault f o).status = .faulted { info := f, pc0 := s.pc, ir := o } := rfl

end Sys2Proof.Machine
end

