-- ==== Sys2Proof/Laws/Decode.lean ====
section
/-! SUPPORT. The opcode bytes, their operand counts, and what each decodes to (30_encoding.md R54, R58): small lemmas, so
that no proof unfolds the decoder. -/

namespace Sys2Proof

variable (a b imm opa opb : Byte)

/-! ### Opcode bytes -/

@[simp] theorem opcodeOf_ldi : opcodeOf (.ldi a imm) = 0x82#8 := rfl
@[simp] theorem opcodeOf_prn : opcodeOf (.prn a) = 0x47#8 := rfl
@[simp] theorem opcodeOf_hlt : opcodeOf .hlt = 0x01#8 := rfl
@[simp] theorem opcodeOf_add : opcodeOf (.add a b) = 0xA0#8 := rfl
@[simp] theorem opcodeOf_mul : opcodeOf (.mul a b) = 0xA2#8 := rfl
@[simp] theorem opcodeOf_cmp : opcodeOf (.cmp a b) = 0xA7#8 := rfl
@[simp] theorem opcodeOf_push : opcodeOf (.push a) = 0x45#8 := rfl
@[simp] theorem opcodeOf_pop : opcodeOf (.pop a) = 0x46#8 := rfl
@[simp] theorem opcodeOf_call : opcodeOf (.call a) = 0x50#8 := rfl
@[simp] theorem opcodeOf_ret : opcodeOf .ret = 0x11#8 := rfl
@[simp] theorem opcodeOf_jmp : opcodeOf (.jmp a) = 0x54#8 := rfl
@[simp] theorem opcodeOf_jeq : opcodeOf (.jeq a) = 0x55#8 := rfl
@[simp] theorem opcodeOf_jne : opcodeOf (.jne a) = 0x56#8 := rfl

/-! ### Operand counts -/

@[simp] theorem operandCount_ldi : operandCount 0x82#8 = 2#2 := rfl
@[simp] theorem operandCount_prn : operandCount 0x47#8 = 1#2 := rfl
@[simp] theorem operandCount_hlt : operandCount 0x01#8 = 0#2 := rfl
@[simp] theorem operandCount_add : operandCount 0xA0#8 = 2#2 := rfl
@[simp] theorem operandCount_mul : operandCount 0xA2#8 = 2#2 := rfl
@[simp] theorem operandCount_cmp : operandCount 0xA7#8 = 2#2 := rfl
@[simp] theorem operandCount_push : operandCount 0x45#8 = 1#2 := rfl
@[simp] theorem operandCount_pop : operandCount 0x46#8 = 1#2 := rfl
@[simp] theorem operandCount_call : operandCount 0x50#8 = 1#2 := rfl
@[simp] theorem operandCount_ret : operandCount 0x11#8 = 0#2 := rfl
@[simp] theorem operandCount_jmp : operandCount 0x54#8 = 1#2 := rfl
@[simp] theorem operandCount_jeq : operandCount 0x55#8 = 1#2 := rfl
@[simp] theorem operandCount_jne : operandCount 0x56#8 = 1#2 := rfl

/-! ### Decoding -/

@[simp] theorem decode_ldi : decode 0x82#8 opa opb = .ok (.ldi opa opb) := rfl
@[simp] theorem decode_prn : decode 0x47#8 opa opb = .ok (.prn opa) := rfl
@[simp] theorem decode_hlt : decode 0x01#8 opa opb = .ok .hlt := rfl
@[simp] theorem decode_add : decode 0xA0#8 opa opb = .ok (.add opa opb) := rfl
@[simp] theorem decode_mul : decode 0xA2#8 opa opb = .ok (.mul opa opb) := rfl
@[simp] theorem decode_cmp : decode 0xA7#8 opa opb = .ok (.cmp opa opb) := rfl
@[simp] theorem decode_push : decode 0x45#8 opa opb = .ok (.push opa) := rfl
@[simp] theorem decode_pop : decode 0x46#8 opa opb = .ok (.pop opa) := rfl
@[simp] theorem decode_call : decode 0x50#8 opa opb = .ok (.call opa) := rfl
@[simp] theorem decode_ret : decode 0x11#8 opa opb = .ok .ret := rfl
@[simp] theorem decode_jmp : decode 0x54#8 opa opb = .ok (.jmp opa) := rfl
@[simp] theorem decode_jeq : decode 0x55#8 opa opb = .ok (.jeq opa) := rfl
@[simp] theorem decode_jne : decode 0x56#8 opa opb = .ok (.jne opa) := rfl

/-- All a decoder's answer says: the opcode byte is that of the instruction, and the operands are the fetched bytes. -/
theorem decode_ok_cases {ir opa opb : Byte} {i : Instr} (h : decode ir opa opb = .ok i) :
    ir = opcodeOf i ∧
      (i = .ldi opa opb ∨ i = .prn opa ∨ i = .hlt ∨ i = .add opa opb ∨ i = .mul opa opb ∨ i = .cmp opa opb ∨
       i = .push opa ∨ i = .pop opa ∨ i = .call opa ∨ i = .ret ∨ i = .jmp opa ∨ i = .jeq opa ∨ i = .jne opa) := by
  unfold decode at h
  split at h
  · unfold decodeAlu at h
    split_ifs at h <;> cases h <;> subst ir <;> refine ⟨rfl, ?_⟩ <;> simp only [true_or, or_true]
  · unfold decodeTable at h
    split_ifs at h <;> cases h <;> subst ir <;> refine ⟨rfl, ?_⟩ <;> simp only [true_or, or_true]

/-- All a decoder's rejection says. -/
theorem decode_error_cases {ir opa opb : Byte} {e : DecodeReject} (h : decode ir opa opb = .error e) :
    (e = .unsupportedAluOperation ir ∧ isAlu ir = true ∧ ir ∉ ([0xA0, 0xA2, 0xA7] : List Byte)) ∨
    (e = .unknownOpcode ir ∧ isAlu ir = false ∧
      ir ∉ ([0x82, 0x47, 0x01, 0x45, 0x46, 0x50, 0x11, 0x54, 0x55, 0x56] : List Byte)) := by
  unfold decode at h
  split at h
  · unfold decodeAlu at h
    split_ifs at h
    cases h
    refine .inl ⟨rfl, ‹_›, ?_⟩
    simp only [List.mem_cons, List.not_mem_nil, or_false, not_or]
    exact ⟨‹_›, ‹_›, ‹_›⟩
  · unfold decodeTable at h
    split_ifs at h
    cases h
    refine .inr ⟨rfl, Bool.eq_false_iff.2 ‹_›, ?_⟩
    simp only [List.mem_cons, List.not_mem_nil, or_false, not_or]
    exact ⟨‹_›, ‹_›, ‹_›, ‹_›, ‹_›, ‹_›, ‹_›, ‹_›, ‹_›, ‹_›⟩

end Sys2Proof
end

