-- ==== Sys2Proof/Laws/Memory.lean ====
section
/-! SUPPORT. The canonical form of memory, and reading after writing (20_memory.md R30, R31, R39, R43). -/

namespace Sys2Proof.Machine

/-! ### Cells -/

theorem wf_nil : Memory.wf [] := by simp [Memory.wf]

theorem Memory.wf.tail {c : Host.Cell} {m : Memory} (h : Memory.wf (c :: m)) : Memory.wf m :=
  ⟨(List.pairwise_cons.1 h.1).2, fun d hd => h.2 d (List.mem_cons_of_mem _ hd)⟩

/-- Below every listed address an unlisted address reads as `MEM_FILL`. -/
theorem cellAt_of_lt {m : Memory} {a : Nat} (h : ∀ c ∈ m, a < c.1) : cellAt m a = Config.memFill := by
  induction m with
  | nil => rfl
  | cons c m ih =>
    have hc := h c (by simp)
    have ne : c.1 ≠ a := by omega
    simpa [cellAt, ne] using ih (fun d hd => h d (List.mem_cons_of_mem _ hd))

/-- A write leaves every other cell alone. -/
theorem cellAt_putCell_of_ne (m : Memory) {a b : Nat} (v : Byte) (h : b ≠ a) :
    cellAt (putCell m a v) b = cellAt m b := by
  induction m with
  | nil =>
    unfold putCell
    split
    · rfl
    · exact if_neg h.symm
  | cons c m ih =>
    obtain ⟨k, w⟩ := c
    unfold putCell
    split_ifs with h1 h2 h3 h4
    · rfl
    · simp [cellAt, h.symm]
    · subst h3; simp [cellAt, h.symm]
    · subst h3; simp [cellAt, h.symm]
    · simp [cellAt, ih]

/-- A write is read back. -/
theorem cellAt_putCell_self {m : Memory} (hm : Memory.wf m) (a : Nat) (v : Byte) : cellAt (putCell m a v) a = v := by
  induction m with
  | nil =>
    unfold putCell
    split
    · exact (‹v = Config.memFill›).symm
    · exact if_pos rfl
  | cons c m ih =>
    obtain ⟨k, w⟩ := c
    have above : ∀ d ∈ m, k < d.1 := (List.pairwise_cons.1 hm.1).1
    unfold putCell
    split_ifs with h1 h2 h3 h4
    · rw [h2]
      exact cellAt_of_lt (by
        intro d hd
        rcases List.mem_cons.1 hd with rfl | hd
        · exact h1
        · exact h1.trans (above d hd))
    · simp [cellAt]
    · subst h3; rw [h4]; exact cellAt_of_lt above
    · simp [cellAt]
    · have ne : k ≠ a := fun e => h3 e.symm
      simpa [cellAt, ne] using ih hm.tail

/-- What is listed after a write was listed before, or is the cell written. -/
theorem mem_putCell {m : Memory} {a : Nat} {v : Byte} {c : Host.Cell} (h : c ∈ putCell m a v) :
    c ∈ m ∨ (c = (a, v) ∧ v ≠ Config.memFill) := by
  induction m with
  | nil => by_cases hv : v = Config.memFill <;> simp_all [putCell]
  | cons d m ih =>
    obtain ⟨k, w⟩ := d
    unfold putCell at h
    split_ifs at h with h1 h2 h3 h4
    · exact .inl h
    · rcases List.mem_cons.1 h with rfl | h
      · exact .inr ⟨rfl, h2⟩
      · exact .inl h
    · exact .inl (List.mem_cons_of_mem _ h)
    · rcases List.mem_cons.1 h with rfl | h
      · exact .inr ⟨rfl, h4⟩
      · exact .inl (List.mem_cons_of_mem _ h)
    · rcases List.mem_cons.1 h with rfl | h
      · exact .inl (by simp)
      · rcases ih h with h | h
        · exact .inl (List.mem_cons_of_mem _ h)
        · exact .inr h

/-- A write below 256 keeps the canonical form. -/
theorem putCell_wf {m : Memory} (hm : Memory.wf m) {a : Nat} (ha : a < Config.memSize) (v : Byte) :
    Memory.wf (putCell m a v) := by
  refine ⟨?_, fun c hc => ?_⟩
  · induction m with
    | nil => unfold putCell; split <;> simp
    | cons d m ih =>
      obtain ⟨k, w⟩ := d
      have above : ∀ d ∈ m, k < d.1 := (List.pairwise_cons.1 hm.1).1
      unfold putCell
      split_ifs with h1 h2 h3 h4
      · exact hm.1
      · refine List.pairwise_cons.2 ⟨fun d hd => ?_, hm.1⟩
        rcases List.mem_cons.1 hd with rfl | hd
        · exact h1
        · exact h1.trans (above d hd)
      · exact hm.tail.1
      · subst h3; exact List.pairwise_cons.2 ⟨above, hm.tail.1⟩
      · refine List.pairwise_cons.2 ⟨fun d hd => ?_, ih hm.tail⟩
        rcases mem_putCell hd with hd | ⟨rfl, -⟩
        · exact above d hd
        · show k < a
          omega
  · rcases mem_putCell hc with hc | ⟨rfl, hv⟩
    · exact hm.2 c hc
    · exact ⟨ha, hv⟩

/-- Canonical memories that read alike at every cell are equal data. -/
theorem Memory.wf.ext {m n : Memory} (hm : Memory.wf m) (hn : Memory.wf n)
    (h : ∀ a < Config.memSize, cellAt m a = cellAt n a) : m = n := by
  induction m generalizing n with
  | nil =>
    cases n with
    | nil => rfl
    | cons d n =>
      have hd := hn.2 d (by simp)
      have := h d.1 hd.1
      simp only [cellAt, if_true] at this
      exact absurd this.symm hd.2
  | cons c m ih =>
    have hc := hm.2 c (by simp)
    have above : ∀ d ∈ m, c.1 < d.1 := (List.pairwise_cons.1 hm.1).1
    have hac := h c.1 hc.1
    simp only [cellAt, if_true] at hac
    cases n with
    | nil => exact absurd hac hc.2
    | cons d n =>
      have hd := hn.2 d (by simp)
      have above' : ∀ e ∈ n, d.1 < e.1 := (List.pairwise_cons.1 hn.1).1
      have had := h d.1 hd.1
      simp only [cellAt, if_true] at had
      have key : c.1 = d.1 := by
        rcases Nat.lt_trichotomy c.1 d.1 with lt | eq | gt
        · have ne : d.1 ≠ c.1 := by omega
          rw [cellAt_of_lt] at hac
          swap
          · intro e he
            rcases List.mem_cons.1 he with rfl | he
            · exact lt
            · exact lt.trans (above' e he)
          exact absurd hac hc.2
        · exact eq
        · have ne : c.1 ≠ d.1 := by omega
          rw [if_neg ne, cellAt_of_lt (fun e he => gt.trans (above e he))] at had
          exact absurd had.symm hd.2
      have val : c.2 = d.2 := by simpa [cellAt, key] using hac
      have rest : m = n := by
        refine ih hm.tail hn.tail fun a ha => ?_
        by_cases ea : c.1 = a
        · subst ea
          rw [cellAt_of_lt above, key, cellAt_of_lt above']
        · have := h a ha
          have ed : d.1 ≠ a := key ▸ ea
          simpa [cellAt, ea, ed] using this
      rw [rest, Prod.ext key val]

/-! ### memRead and memWrite -/

theorem memRead_of_inMemory {s : State} {a : Int} (h : inMemory a) : memRead s a = .ok (cellAt s.mem a.toNat) :=
  if_pos h

theorem memRead_of_not {s : State} {a : Int} (h : ¬ inMemory a) : memRead s a = .error (.memoryFault (.address a)) :=
  if_neg h

/-- Reading depends on memory alone. -/
theorem memRead_congr {s t : State} (h : t.mem = s.mem) (a : Int) : memRead t a = memRead s a := by
  unfold memRead; rw [h]

theorem sameMemory_of_mem {s t : State} (h : t.mem = s.mem) : SameMemory s t := memRead_congr h

/-- A byte used as an address is always in memory. -/
theorem inMemory_byteInt (v : Byte) : inMemory (byteInt v) := by
  have := v.isLt
  simp only [inMemory, byteInt, Config.memSize]; omega

theorem byteInt_toNat (v : Byte) : (byteInt v).toNat = v.toNat := by simp [byteInt]

/-- All a write can do: in range it changes that cell and no other part of the state; out of range it is the spec's
fault (20_memory.md R31). -/
theorem memWrite_cases (s : State) (a : Int) (v : Byte) :
    (inMemory a ∧ memWrite s a v = .ok { s with mem := putCell s.mem a.toNat v }) ∨
    (¬ inMemory a ∧ memWrite s a v = .error (.memoryFault (.address a))) := by
  by_cases h : inMemory a
  · exact .inl ⟨h, if_pos h⟩
  · exact .inr ⟨h, if_neg h⟩

/-- After a write every other address reads as before. -/
theorem memRead_putCell_of_ne {s t : State} {a b : Int} {v : Byte} (ha : inMemory a)
    (ht : t.mem = putCell s.mem a.toNat v) (h : b ≠ a) : memRead t b = memRead s b := by
  by_cases hb : inMemory b
  · have ne : b.toNat ≠ a.toNat := by simp only [inMemory] at ha hb; omega
    rw [memRead_of_inMemory hb, memRead_of_inMemory hb, ht, cellAt_putCell_of_ne _ _ ne]
  · rw [memRead_of_not hb, memRead_of_not hb]

/-- After a write the address written reads as the byte written. -/
theorem memRead_putCell_self {s t : State} {a : Int} {v : Byte} (hs : Memory.wf s.mem) (ha : inMemory a)
    (ht : t.mem = putCell s.mem a.toNat v) : memRead t a = .ok v := by
  rw [memRead_of_inMemory ha, ht, cellAt_putCell_self hs]

/-! ### The loader's writes keep the canonical form -/

theorem loadByte_wf {s : State} (h : Memory.wf s.mem) (a : Nat) (v : Byte) : Memory.wf (loadByte s a v).mem := by
  unfold loadByte
  split
  · exact putCell_wf h ‹_› v
  · exact h

theorem loadFrom_wf (vs : List Byte) {s : State} (h : Memory.wf s.mem) (a : Nat) :
    Memory.wf (loadFrom s a vs).mem := by
  induction vs generalizing s a with
  | nil => exact h
  | cons v vs ih => exact ih (loadByte_wf h a v) _

end Sys2Proof.Machine
end

