-- ==== Sys2Proof/Laws/Ops.lean ====
section
/-! SUPPORT. One lemma per shared operation that says everything it can do: operands, the stack-pointer controller, pushing
and popping, ending an instruction, fetching. -/

namespace Sys2Proof.Machine

/-! ### Ending an instruction -/

@[simp] theorem finish_ok (ir : Byte) (s t : State) : finish ir s (.ok t) = .next t := rfl

@[simp] theorem finish_error (ir : Byte) (s : State) (f : FaultInfo) :
    finish ir s (.error f) = .next (s.withFault f (some ir)) := rfl

@[simp] theorem raiseFault_eq (f : FaultInfo) (ir : Option Byte) (s : State) : raiseFault f ir s = .next (s.withFault f ir) := rfl

/-- An instruction always ends in a next state: its effect, or the fault taken in the state it began in. -/
theorem finish_next {ir : Byte} {s t : State} {e : Except FaultInfo State} (h : finish ir s e = .next t) :
    e = .ok t ∨ ∃ f, e = .error f ∧ t = s.withFault f (some ir) := by
  cases e with
  | ok u => exact .inl (by simpa using h)
  | error f => exact .inr ⟨f, rfl, by simpa using h.symm⟩

theorem finish_total (ir : Byte) (s : State) (e : Except FaultInfo State) : ∃ t, finish ir s e = .next t := by
  cases e
  · exact ⟨_, finish_error ..⟩
  · exact ⟨_, finish_ok ..⟩

/-! ### Sequencing effects that may fault -/

theorem bind_ok_iff {ε α β : Type} {x : Except ε α} {f : α → Except ε β} {b : β} :
    (x >>= f) = .ok b ↔ ∃ a, x = .ok a ∧ f a = .ok b := by
  cases x with
  | ok a => exact ⟨fun h => ⟨a, rfl, h⟩, fun ⟨_, h, h'⟩ => by cases h; exact h'⟩
  | error e => exact ⟨fun h => (by cases h), fun ⟨_, h, _⟩ => (by cases h)⟩

theorem bind_error_iff {ε α β : Type} {x : Except ε α} {f : α → Except ε β} {e : ε} :
    (x >>= f) = .error e ↔ x = .error e ∨ ∃ a, x = .ok a ∧ f a = .error e := by
  cases x with
  | ok a =>
    refine ⟨fun h => .inr ⟨a, rfl, h⟩, fun h => ?_⟩
    rcases h with h | ⟨_, h, h'⟩
    · cases h
    · cases h; exact h'
  | error e' =>
    refine ⟨fun h => .inl (by cases h; rfl), fun h => ?_⟩
    rcases h with h | ⟨_, h, _⟩
    · cases h; rfl
    · cases h

@[simp] theorem ok_bind {ε α β : Type} (a : α) (f : α → Except ε β) : (Except.ok a >>= f) = f a := rfl
@[simp] theorem error_bind {ε α β : Type} (e : ε) (f : α → Except ε β) : (Except.error e >>= f) = .error e := rfl
@[simp] theorem pure_eq_ok {ε α : Type} (a : α) : (pure a : Except ε α) = .ok a := rfl

/-! ### Register operands (10_state.md R12) -/

theorem regIdx_of_eq {o : Byte} {r : Reg} (h : o.toNat = r.val) : regIdx o = .ok r := by
  have : o.toNat < 8 := h ▸ r.isLt
  simp only [regIdx, this, dif_pos]
  exact congrArg _ (Fin.ext h)

theorem regIdx_of_ge {o : Byte} (h : 8 ≤ o.toNat) : regIdx o = .error (.memoryFault (.registerIndex o)) :=
  dif_neg (by omega)

theorem regIdx_ok_iff {o : Byte} {r : Reg} : regIdx o = .ok r ↔ o.toNat = r.val := by
  refine ⟨fun h => ?_, regIdx_of_eq⟩
  by_cases ho : o.toNat < 8
  · rw [regIdx, dif_pos ho] at h; cases h; rfl
  · rw [regIdx_of_ge (by omega)] at h; cases h

theorem regIdx_error_iff {o : Byte} {f : FaultInfo} :
    regIdx o = .error f ↔ 8 ≤ o.toNat ∧ f = .memoryFault (.registerIndex o) := by
  constructor
  · intro h
    by_cases ho : o.toNat < 8
    · rw [regIdx, dif_pos ho] at h; cases h
    · rw [regIdx_of_ge (by omega)] at h; cases h; exact ⟨by omega, rfl⟩
  · rintro ⟨h, rfl⟩; exact regIdx_of_ge h

/-! ### The stack-pointer controller (10_state.md R14) -/

theorem spBefore_ok_iff {v w : Byte} : spBefore v = .ok w ↔ v.toNat = w.toNat + 1 := by
  have hv := v.isLt
  have hw := w.isLt
  unfold spBefore byteInt
  split
  · constructor
    · intro h; cases h
    · intro h; omega
  · simp only [Except.ok.injEq]
    constructor
    · rintro rfl; bv_omega
    · intro h; bv_omega

theorem spBefore_error_iff {v : Byte} {f : FaultInfo} :
    spBefore v = .error f ↔ v.toNat = 0 ∧ f = .memoryFault (.address (-1)) := by
  unfold spBefore byteInt
  split
  · have h0 : v.toNat = 0 := by omega
    simp [h0, eq_comm]
  · constructor
    · intro h; cases h
    · rintro ⟨h, -⟩; omega

theorem spAfter_ok_iff {v w : Byte} : spAfter v = .ok w ↔ w.toNat = v.toNat + 1 := by
  have hv := v.isLt
  have hw := w.isLt
  unfold spAfter byteInt
  split
  · constructor
    · intro h; cases h
    · intro h; omega
  · simp only [Except.ok.injEq]
    constructor
    · rintro rfl; bv_omega
    · intro h; bv_omega

theorem spAfter_error_iff {v : Byte} {f : FaultInfo} :
    spAfter v = .error f ↔ v.toNat = 255 ∧ f = .memoryFault (.stackPointer 256) := by
  have hv := v.isLt
  unfold spAfter byteInt
  split
  · have h0 : v.toNat = 255 := by omega
    simp [h0, eq_comm]
  · constructor
    · intro h; cases h
    · rintro ⟨h, -⟩; omega

/-! ### Pushing and popping (42_stack.md R95, R96, R100) -/

/-- The state a push of `v` leaves, `sp` being the new stack pointer. -/
theorem pushByte_of_sp {s : State} {v : State → Byte} {sp : Byte} (h : pushAddress s = .ok sp) :
    pushByte s v = .ok { s.setReg Config.SP sp with
      mem := putCell s.mem sp.toNat (v (s.setReg Config.SP sp)) } := by
  simp only [pushByte, h, ok_bind, memWrite, if_pos (inMemory_byteInt sp), byteInt_toNat, setReg_mem]

/-- All a push can do: store one byte at the decremented stack pointer, or fault with nothing done. -/
theorem pushByte_cases (s : State) (v : State → Byte) :
    (∃ sp, pushAddress s = .ok sp ∧ (s.reg Config.SP).toNat = sp.toNat + 1 ∧
      pushByte s v = .ok { s.setReg Config.SP sp with
        mem := putCell s.mem sp.toNat (v (s.setReg Config.SP sp)) }) ∨
    ((s.reg Config.SP).toNat = 0 ∧ pushByte s v = .error (.memoryFault (.address (-1)))) := by
  cases h : pushAddress s with
  | ok sp => exact .inl ⟨sp, rfl, spBefore_ok_iff.1 h, pushByte_of_sp h⟩
  | error f =>
    obtain ⟨h0, rfl⟩ := spBefore_error_iff.1 h
    refine .inr ⟨h0, ?_⟩
    unfold pushByte
    rw [h]
    rfl

/-- The top of the stack can always be read. -/
theorem topByte_eq (s : State) : topByte s = .ok (cellAt s.mem (s.reg Config.SP).toNat) := by
  unfold topByte
  rw [memRead_of_inMemory (inMemory_byteInt _), byteInt_toNat]

/-! ### Program counter -/

theorem pcOfByte_toNat (v : Byte) : (pcOfByte v).toNat = v.toNat := by
  have := v.isLt
  simp only [pcOfByte, BitVec.toNat_setWidth]
  omega

/-- `npc = pc0 + n + 1` does not wrap where an instruction can be fetched (40_loop.md R72). -/
theorem nextPc_toNat {pc0 : Pc} (h : pc0.toNat ≤ 253) (ir : Byte) :
    (nextPc pc0 ir).toNat = pc0.toNat + (operandCount ir).toNat + 1 := by
  have := (operandCount ir).isLt
  have one : (1 : Pc).toNat = 1 := rfl
  simp only [nextPc, BitVec.toNat_add, BitVec.toNat_setWidth, one]
  omega

/-! ### Fetch (40_loop.md R71) -/

/-- All a fetch can do while pc is in 0..256. -/
theorem fetch_cases {s : State} (h : s.pc.toNat ≤ 256) :
    (s.pc.toNat ≤ 253 ∧ ∃ ir opa opb, s.Fetches ir opa opb ∧ fetch s = .ok (ir, opa, opb)) ∨
    ((s.pc.toNat = 254 ∨ s.pc.toNat = 255) ∧ ∃ ir, memRead s s.pc.toNat = .ok ir ∧
      fetch s = .error (.memoryFault (.address 256), some ir)) ∨
    (s.pc.toNat = 256 ∧ fetch s = .error (.memoryFault (.address 256), none)) := by
  have rd (k : Nat) (hk : s.pc.toNat + k ≤ 255) :
      memRead s ((s.pc.toNat : Int) + k) = .ok (cellAt s.mem (s.pc.toNat + k)) := by
    rw [memRead_of_inMemory (by simp only [inMemory, Config.memSize]; omega)]
    congr
  have no (a : Int) (ha : a = 256) : memRead s a = .error (.memoryFault (.address 256)) := by
    subst ha; exact memRead_of_not (by decide)
  rcases Nat.lt_or_ge s.pc.toNat 254 with h1 | h1
  · have r0 := rd 0 (by omega)
    have r1 := rd 1 (by omega)
    have r2 := rd 2 (by omega)
    simp only [Nat.cast_zero, Int.add_zero, Nat.cast_one, Nat.cast_ofNat] at r0 r1 r2
    exact .inl ⟨by omega, _, _, _, ⟨r0, r1, r2⟩, by simp [fetch, fetchRead, r0, r1, r2]⟩
  · have cases3 : s.pc.toNat = 254 ∨ s.pc.toNat = 255 ∨ s.pc.toNat = 256 := by omega
    rcases cases3 with h2 | h2 | h2
    · have r0 := rd 0 (by omega)
      have r1 := rd 1 (by omega)
      have r2 := no ((s.pc.toNat : Int) + 2) (by omega)
      simp only [Nat.cast_zero, Int.add_zero, Nat.cast_one] at r0 r1
      exact .inr (.inl ⟨.inl h2, _, r0, by simp [fetch, fetchRead, r0, r1, r2]⟩)
    · have r0 := rd 0 (by omega)
      have r1 := no ((s.pc.toNat : Int) + 1) (by omega)
      simp only [Nat.cast_zero, Int.add_zero] at r0
      exact .inr (.inl ⟨.inr h2, _, r0, by simp [fetch, fetchRead, r0, r1]⟩)
    · have r0 := no (s.pc.toNat : Int) (by omega)
      exact .inr (.inr ⟨h2, by simp [fetch, fetchRead, r0]⟩)

/-- Fetching depends on pc and memory alone. -/
theorem fetch_congr {s t : State} (hp : t.pc = s.pc) (hm : t.mem = s.mem) : fetch t = fetch s := by
  unfold fetch fetchRead
  simp only [hp, memRead_congr hm]

theorem fetch_of_fetches {s : State} {ir opa opb : Byte} (h : s.Fetches ir opa opb) : fetch s = .ok (ir, opa, opb) := by
  obtain ⟨h0, h1, h2⟩ := h
  simp [fetch, fetchRead, h0, h1, h2]

theorem fetches_of_fetch {s : State} {ir opa opb : Byte} (h : fetch s = .ok (ir, opa, opb)) : s.Fetches ir opa opb := by
  have read {a : Int} {o : Option Byte} {v : Byte} (hr : fetchRead s a o = .ok v) : memRead s a = .ok v := by
    unfold fetchRead at hr
    split at hr
    · cases hr; assumption
    · cases hr
  unfold fetch at h
  obtain ⟨_, h0, h⟩ := bind_ok_iff.1 h
  obtain ⟨_, h1, h⟩ := bind_ok_iff.1 h
  obtain ⟨_, h2, h⟩ := bind_ok_iff.1 h
  cases h
  exact ⟨read h0, read h1, read h2⟩

/-! ### One step while Running (40_loop.md R73) -/

theorem step_of_running {s : State} (h : s.status = .running) : step s = runOne s := by
  simp [step, cycle, h]

theorem runOne_of_fetch_error {s : State} {f : FaultInfo} {ir : Option Byte} (h : fetch s = .error (f, ir)) :
    runOne s = .next (s.withFault f ir) := by
  unfold runOne
  rw [h]
  rfl

theorem runOne_of_decode_error {s : State} {ir opa opb : Byte} {e : DecodeReject} (h : s.Fetches ir opa opb)
    (hd : decode ir opa opb = .error e) : runOne s = .next (s.withFault (faultOfReject e) (some ir)) := by
  unfold runOne
  rw [fetch_of_fetches h]
  simp only [hd]
  rfl

theorem runOne_of_decode_ok {s : State} {ir opa opb : Byte} {i : Instr} (h : s.Fetches ir opa opb)
    (hd : decode ir opa opb = .ok i) : runOne s = exec i s := by
  unfold runOne
  rw [fetch_of_fetches h]
  simp only [hd]

/-- Everything a step can do: none from a terminal status; from Running, a fetch fault, a decode fault, or the
instruction fetched. -/
theorem step_cases (s : State) :
    (s.status = .halted ∧ step s = .fault .noStepHalted) ∨
    (∃ r, s.status = .faulted r ∧ step s = .fault (.noStepFaulted r)) ∨
    (s.status = .running ∧
      ((∃ f ir, fetch s = .error (f, ir) ∧ step s = .next (s.withFault f ir)) ∨
       (∃ ir opa opb e, s.Fetches ir opa opb ∧ decode ir opa opb = .error e ∧
          step s = .next (s.withFault (faultOfReject e) (some ir))) ∨
       (∃ ir opa opb i, s.Fetches ir opa opb ∧ decode ir opa opb = .ok i ∧ step s = exec i s))) := by
  cases hs : s.status with
  | halted => exact .inl ⟨rfl, by simp [step, cycle, hs]⟩
  | faulted r => exact .inr (.inl ⟨r, rfl, by simp [step, cycle, hs]⟩)
  | running =>
    refine .inr (.inr ⟨rfl, ?_⟩)
    rw [step_of_running hs]
    rcases hf : fetch s with ⟨f, ir⟩ | ⟨ir, opa, opb⟩
    · exact .inl ⟨f, ir, rfl, runOne_of_fetch_error hf⟩
    · have hF := fetches_of_fetch hf
      rcases hd : decode ir opa opb with e | i
      · exact .inr (.inl ⟨ir, opa, opb, e, hF, hd, runOne_of_decode_error hF hd⟩)
      · exact .inr (.inr ⟨ir, opa, opb, i, hF, hd, runOne_of_decode_ok hF hd⟩)

end Sys2Proof.Machine
end

