-- ==== Sys2Proof/Laws/Exec.lean ====
section
/-! SUPPORT. For each instruction, everything it can do: the state its effect leaves, or the fault taken. Proofs about
`exec` cite these instead of unfolding a meaning. -/

namespace Sys2Proof.Machine

/-- The state after taking a register-index fault on operand byte `o`. -/
abbrev badRegister (s : State) (o ir : Byte) : State := s.withFault (.memoryFault (.registerIndex o)) (some ir)

/-- The state after storing a byte at the new stack pointer `sp`. -/
abbrev pushed (s : State) (sp v : Byte) : State :=
  { s.setReg Config.SP sp with mem := putCell s.mem sp.toNat v }

/-! ### The dispatch -/

section
variable (a b imm : Byte) (s : State)

theorem exec_ldi : exec (.ldi a imm) s = execLdi a imm s := by rw [exec]
theorem exec_prn : exec (.prn a) s = execPrn a s := by rw [exec]
theorem exec_hlt : exec .hlt s = execHlt s := by rw [exec]
theorem exec_add : exec (.add a b) s = execAdd a b s := by rw [exec]
theorem exec_mul : exec (.mul a b) s = execMul a b s := by rw [exec]
theorem exec_cmp : exec (.cmp a b) s = execCmp a b s := by rw [exec]
theorem exec_push : exec (.push a) s = execPush a s := by rw [exec]
theorem exec_pop : exec (.pop a) s = execPop a s := by rw [exec]
theorem exec_call : exec (.call a) s = execCall a s := by rw [exec]
theorem exec_ret : exec .ret s = execRet s := by rw [exec]
theorem exec_jmp : exec (.jmp a) s = execJmp a s := by rw [exec]
theorem exec_jeq : exec (.jeq a) s = execJeq a s := by rw [exec]
theorem exec_jne : exec (.jne a) s = execJne a s := by rw [exec]

end

/-! ### Operands -/

/-- Every operand byte names a register or is above 7. -/
theorem regIdx_cases (o : Byte) :
    (∃ r : Reg, o.toNat = r.val ∧ regIdx o = .ok r) ∨
    (8 ≤ o.toNat ∧ regIdx o = .error (.memoryFault (.registerIndex o))) := by
  by_cases h : o.toNat < 8
  · exact .inl ⟨⟨o.toNat, h⟩, rfl, regIdx_of_eq rfl⟩
  · exact .inr ⟨by omega, regIdx_of_ge (by omega)⟩

theorem spAfter_cases (v : Byte) :
    (∃ w : Byte, w.toNat = v.toNat + 1 ∧ spAfter v = .ok w) ∨
    (v.toNat = 255 ∧ spAfter v = .error (.memoryFault (.stackPointer 256))) := by
  cases h : spAfter v with
  | ok w => exact .inl ⟨w, spAfter_ok_iff.1 h, rfl⟩
  | error f =>
    obtain ⟨h0, rfl⟩ := spAfter_error_iff.1 h
    exact .inr ⟨h0, rfl⟩

theorem jumpVia_cases (a : Byte) (s : State) :
    (∃ ra : Reg, a.toNat = ra.val ∧ jumpVia a s = .ok (s.setPc (pcOfByte (s.reg ra)))) ∨
    (8 ≤ a.toNat ∧ jumpVia a s = .error (.memoryFault (.registerIndex a))) := by
  rcases regIdx_cases a with ⟨ra, ha, e⟩ | ⟨ha, e⟩
  · exact .inl ⟨ra, ha, by simp [jumpVia, e]⟩
  · exact .inr ⟨ha, by simp [jumpVia, e]⟩

/-! ### The meanings -/

variable {s t : State} {a b imm : Byte}

theorem execLdi_cases (h : execLdi a imm s = .next t) :
    (∃ ra : Reg, a.toNat = ra.val ∧ t = (s.setReg ra imm).advance 0x82#8) ∨
    (8 ≤ a.toNat ∧ t = badRegister s a 0x82#8) := by
  rcases regIdx_cases a with ⟨ra, ha, e⟩ | ⟨ha, e⟩
  · exact .inl ⟨ra, ha, by simpa [execLdi, e, immediate, eq_comm] using h⟩
  · exact .inr ⟨ha, by simpa [execLdi, e, eq_comm] using h⟩

theorem execPrn_cases (h : execPrn a s = .next t) :
    (∃ ra : Reg, a.toNat = ra.val ∧ t = (s.emit (s.reg ra)).advance 0x47#8) ∨
    (8 ≤ a.toNat ∧ t = badRegister s a 0x47#8) := by
  rcases regIdx_cases a with ⟨ra, ha, e⟩ | ⟨ha, e⟩
  · exact .inl ⟨ra, ha, by simpa [execPrn, e, eq_comm] using h⟩
  · exact .inr ⟨ha, by simpa [execPrn, e, eq_comm] using h⟩

theorem execHlt_cases (h : execHlt s = .next t) : t = (s.advance 0x01#8).setStatus .halted := by
  simpa [execHlt, eq_comm] using h

theorem aluBinary_cases {op : Byte → Byte → Byte} {ir : Byte} (h : aluBinary op ir a b s = .next t) :
    (∃ ra rb : Reg, a.toNat = ra.val ∧ b.toNat = rb.val ∧
      t = (s.setReg ra (op (s.reg ra) (s.reg rb))).advance ir) ∨
    (∃ o : Byte, (o = a ∨ o = b) ∧ 8 ≤ o.toNat ∧ t = badRegister s o ir) := by
  rcases regIdx_cases a with ⟨ra, ha, ea⟩ | ⟨ha, ea⟩
  · rcases regIdx_cases b with ⟨rb, hb, eb⟩ | ⟨hb, eb⟩
    · exact .inl ⟨ra, rb, ha, hb, by simpa [aluBinary, ea, eb, eq_comm] using h⟩
    · exact .inr ⟨b, .inr rfl, hb, by simpa [aluBinary, ea, eb, eq_comm] using h⟩
  · exact .inr ⟨a, .inl rfl, ha, by simpa [aluBinary, ea, eq_comm] using h⟩

theorem execCmp_cases (h : execCmp a b s = .next t) :
    (∃ ra rb : Reg, a.toNat = ra.val ∧ b.toNat = rb.val ∧
      t = (s.setReg Config.FL (compareFlags (s.reg ra) (s.reg rb))).advance 0xA7#8) ∨
    (∃ o : Byte, (o = a ∨ o = b) ∧ 8 ≤ o.toNat ∧ t = badRegister s o 0xA7#8) := by
  rcases regIdx_cases a with ⟨ra, ha, ea⟩ | ⟨ha, ea⟩
  · rcases regIdx_cases b with ⟨rb, hb, eb⟩ | ⟨hb, eb⟩
    · exact .inl ⟨ra, rb, ha, hb, by simpa [execCmp, ea, eb, eq_comm] using h⟩
    · exact .inr ⟨b, .inr rfl, hb, by simpa [execCmp, ea, eb, eq_comm] using h⟩
  · exact .inr ⟨a, .inl rfl, ha, by simpa [execCmp, ea, eq_comm] using h⟩

theorem execPush_cases (h : execPush a s = .next t) :
    (∃ (ra : Reg) (sp : Byte), a.toNat = ra.val ∧ pushAddress s = .ok sp ∧ (s.reg Config.SP).toNat = sp.toNat + 1 ∧
      t = (pushed s sp ((s.setReg Config.SP sp).reg ra)).advance 0x45#8) ∨
    (8 ≤ a.toNat ∧ t = badRegister s a 0x45#8) ∨
    ((s.reg Config.SP).toNat = 0 ∧ t = s.withFault (.memoryFault (.address (-1))) (some 0x45#8)) := by
  rcases regIdx_cases a with ⟨ra, ha, e⟩ | ⟨ha, e⟩
  · rcases pushByte_cases s (fun s1 => s1.reg ra) with ⟨sp, hp, hv, ep⟩ | ⟨h0, ep⟩
    · refine .inl ⟨ra, sp, ha, hp, hv, ?_⟩
      simp only [execPush, e, ok_bind, opcodeOf_push, ep, pure_eq_ok, finish_ok] at h
      exact (Host.Outcome.next.inj h).symm
    · exact .inr (.inr ⟨h0, by simpa [execPush, e, ep, eq_comm] using h⟩)
  · exact .inr (.inl ⟨ha, by simpa [execPush, e, eq_comm] using h⟩)

theorem execPop_cases (h : execPop a s = .next t) :
    (∃ (ra : Reg) (v sp : Byte), a.toNat = ra.val ∧ v = cellAt s.mem (s.reg Config.SP).toNat ∧
      sp.toNat = ((s.setReg ra v).reg Config.SP).toNat + 1 ∧
      t = ((s.setReg ra v).setReg Config.SP sp).advance 0x46#8) ∨
    (8 ≤ a.toNat ∧ t = badRegister s a 0x46#8) ∨
    t = s.withFault (.memoryFault (.stackPointer 256)) (some 0x46#8) := by
  rcases regIdx_cases a with ⟨ra, ha, e⟩ | ⟨ha, e⟩
  · rcases spAfter_cases ((s.setReg ra (cellAt s.mem (s.reg Config.SP).toNat)).reg Config.SP) with ⟨sp, hs, es⟩ | ⟨-, es⟩
    · refine .inl ⟨ra, _, sp, ha, rfl, hs, ?_⟩
      simp only [execPop, e, topByte_eq, ok_bind, es, opcodeOf_pop, pure_eq_ok, finish_ok] at h
      exact (Host.Outcome.next.inj h).symm
    · refine .inr (.inr ?_)
      simp only [execPop, e, topByte_eq, ok_bind, es, error_bind, opcodeOf_pop, finish_error] at h
      exact (Host.Outcome.next.inj h).symm
  · exact .inr (.inl ⟨ha, by simpa [execPop, e, eq_comm] using h⟩)

theorem execCall_cases (h : execCall a s = .next t) :
    (∃ (ra : Reg) (sp : Byte), a.toNat = ra.val ∧ pushAddress s = .ok sp ∧ (s.reg Config.SP).toNat = sp.toNat + 1 ∧
      t = (pushed s sp (returnAddress s.pc 0x50#8)).setPc (pcOfByte ((s.setReg Config.SP sp).reg ra))) ∨
    (8 ≤ a.toNat ∧ t = badRegister s a 0x50#8) ∨
    ((s.reg Config.SP).toNat = 0 ∧ t = s.withFault (.memoryFault (.address (-1))) (some 0x50#8)) := by
  rcases regIdx_cases a with ⟨ra, ha, e⟩ | ⟨ha, e⟩
  · rcases pushByte_cases s (fun _ => returnAddress s.pc 0x50#8) with ⟨sp, hp, hv, ep⟩ | ⟨h0, ep⟩
    · refine .inl ⟨ra, sp, ha, hp, hv, ?_⟩
      simp only [execCall, e, ok_bind, opcodeOf_call, ep, pure_eq_ok, finish_ok] at h
      exact (Host.Outcome.next.inj h).symm
    · exact .inr (.inr ⟨h0, by simpa [execCall, e, ep, eq_comm] using h⟩)
  · exact .inr (.inl ⟨ha, by simpa [execCall, e, eq_comm] using h⟩)

theorem execRet_cases (h : execRet s = .next t) :
    (∃ sp : Byte, sp.toNat = (s.reg Config.SP).toNat + 1 ∧
      t = (s.setReg Config.SP sp).setPc (pcOfByte (cellAt s.mem (s.reg Config.SP).toNat))) ∨
    ((s.reg Config.SP).toNat = 255 ∧ t = s.withFault (.memoryFault (.stackPointer 256)) (some 0x11#8)) := by
  rcases spAfter_cases (s.reg Config.SP) with ⟨sp, hs, es⟩ | ⟨h5, es⟩
  · refine .inl ⟨sp, hs, ?_⟩
    simp only [execRet, topByte_eq, ok_bind, es, pure_eq_ok, finish_ok] at h
    exact (Host.Outcome.next.inj h).symm
  · refine .inr ⟨h5, ?_⟩
    simp only [execRet, topByte_eq, ok_bind, es, error_bind, opcodeOf_ret, finish_error] at h
    exact (Host.Outcome.next.inj h).symm

theorem execJmp_cases (h : execJmp a s = .next t) :
    (∃ ra : Reg, a.toNat = ra.val ∧ t = s.setPc (pcOfByte (s.reg ra))) ∨
    (8 ≤ a.toNat ∧ t = badRegister s a 0x54#8) := by
  rcases jumpVia_cases a s with ⟨ra, ha, e⟩ | ⟨ha, e⟩
  · exact .inl ⟨ra, ha, by simpa [execJmp, e, eq_comm] using h⟩
  · exact .inr ⟨ha, by simpa [execJmp, e, eq_comm] using h⟩

theorem jumpIf_cases {taken : Bool} {ir : Byte} (h : jumpIf taken ir a s = .next t) :
    (taken = true ∧ ∃ ra : Reg, a.toNat = ra.val ∧ t = s.setPc (pcOfByte (s.reg ra))) ∨
    (taken = true ∧ 8 ≤ a.toNat ∧ t = badRegister s a ir) ∨
    (taken = false ∧ t = s.advance ir) := by
  cases taken with
  | false => exact .inr (.inr ⟨rfl, by simpa [jumpIf, eq_comm] using h⟩)
  | true =>
    rcases jumpVia_cases a s with ⟨ra, ha, e⟩ | ⟨ha, e⟩
    · exact .inl ⟨rfl, ra, ha, by simpa [jumpIf, e, eq_comm] using h⟩
    · exact .inr (.inl ⟨rfl, ha, by simpa [jumpIf, e, eq_comm] using h⟩)

theorem execJeq_cases (h : execJeq a s = .next t) :
    ((s.reg Config.FL).getLsbD 0 = true ∧ ∃ ra : Reg, a.toNat = ra.val ∧ t = s.setPc (pcOfByte (s.reg ra))) ∨
    ((s.reg Config.FL).getLsbD 0 = true ∧ 8 ≤ a.toNat ∧ t = badRegister s a 0x55#8) ∨
    ((s.reg Config.FL).getLsbD 0 = false ∧ t = s.advance 0x55#8) :=
  jumpIf_cases h

theorem execJne_cases (h : execJne a s = .next t) :
    ((s.reg Config.FL).getLsbD 0 = false ∧ ∃ ra : Reg, a.toNat = ra.val ∧ t = s.setPc (pcOfByte (s.reg ra))) ∨
    ((s.reg Config.FL).getLsbD 0 = false ∧ 8 ≤ a.toNat ∧ t = badRegister s a 0x56#8) ∨
    ((s.reg Config.FL).getLsbD 0 = true ∧ t = s.advance 0x56#8) := by
  have c := jumpIf_cases h
  simp only [Bool.not_eq_true', Bool.not_eq_false'] at c
  exact c

/-! ### Runs -/

theorem runSteps_zero (s : State) : runSteps 0 s = .next s := rfl

theorem runSteps_succ_of_next {k : Nat} (h : step s = .next t) : runSteps (k + 1) s = runSteps k t := by
  simp only [runSteps, Host.Core.run]
  rw [show core.step s = _ from h]

theorem runSteps_succ_of_fault {k : Nat} {f : Fault} (h : step s = .fault f) : runSteps (k + 1) s = .fault f := by
  simp only [runSteps, Host.Core.run]
  rw [show core.step s = _ from h]
  rfl

end Sys2Proof.Machine
end

