-- ==== Sys2Proof/Laws/PerInstr.lean ====
section
/-! SUPPORT. Facts about each instruction as syntax, one lemma per constructor. -/

namespace Sys2Proof.Laws.EncodedShape

/-- The fields of an opcode byte above its identifier (30_encoding.md R51). -/
def fieldsOf (ir : Byte) : Nat × Bool × Bool := ((operandCount ir).toNat, isAlu ir, setsPc ir)

/-- The table of 30_encoding.md R54: operand count, isAlu, setsPc. -/
def upperFields : Instr → Nat × Bool × Bool
  | .ldi _ _ => (2, false, false)
  | .prn _ => (1, false, false)
  | .hlt => (0, false, false)
  | .add _ _ => (2, true, false)
  | .mul _ _ => (2, true, false)
  | .cmp _ _ => (2, true, false)
  | .push _ => (1, false, false)
  | .pop _ => (1, false, false)
  | .call _ => (1, false, true)
  | .ret => (0, false, true)
  | .jmp _ => (1, false, true)
  | .jeq _ => (1, false, true)
  | .jne _ => (1, false, true)

/-- The opcode byte carries the fields of R54, and the encoding is as long as its count field says (30_encoding.md R52). -/
def Statement (i : Instr) : Prop :=
  fieldsOf (opcodeOf i) = upperFields i ∧ (encode i).length = (upperFields i).1 + 1

theorem ldi (a imm : Byte) : Statement (.ldi a imm) := ⟨(rfl : fieldsOf 0x82#8 = (2, false, false)), rfl⟩
theorem prn (a : Byte) : Statement (.prn a) := ⟨(rfl : fieldsOf 0x47#8 = (1, false, false)), rfl⟩
theorem hlt : Statement .hlt := ⟨(rfl : fieldsOf 0x01#8 = (0, false, false)), rfl⟩
theorem add (a b : Byte) : Statement (.add a b) := ⟨(rfl : fieldsOf 0xA0#8 = (2, true, false)), rfl⟩
theorem mul (a b : Byte) : Statement (.mul a b) := ⟨(rfl : fieldsOf 0xA2#8 = (2, true, false)), rfl⟩
theorem cmp (a b : Byte) : Statement (.cmp a b) := ⟨(rfl : fieldsOf 0xA7#8 = (2, true, false)), rfl⟩
theorem push (a : Byte) : Statement (.push a) := ⟨(rfl : fieldsOf 0x45#8 = (1, false, false)), rfl⟩
theorem pop (a : Byte) : Statement (.pop a) := ⟨(rfl : fieldsOf 0x46#8 = (1, false, false)), rfl⟩
theorem call (a : Byte) : Statement (.call a) := ⟨(rfl : fieldsOf 0x50#8 = (1, false, true)), rfl⟩
theorem ret : Statement .ret := ⟨(rfl : fieldsOf 0x11#8 = (0, false, true)), rfl⟩
theorem jmp (a : Byte) : Statement (.jmp a) := ⟨(rfl : fieldsOf 0x54#8 = (1, false, true)), rfl⟩
theorem jeq (a : Byte) : Statement (.jeq a) := ⟨(rfl : fieldsOf 0x55#8 = (1, false, true)), rfl⟩
theorem jne (a : Byte) : Statement (.jne a) := ⟨(rfl : fieldsOf 0x56#8 = (1, false, true)), rfl⟩

end Sys2Proof.Laws.EncodedShape
end

