-- ==== Sys2Proof/Tests/Slice0.lean ====
section
/-! SUPPORT. Small tests and the witnesses of the statements' hypotheses. Expected results come from spec/95_test_vectors.md
(the row is named) and from the encodings of spec/30_encoding.md, never from the model. -/

namespace Sys2Proof.Tests

open Sys2Proof.Machine

/-! ### Small states -/

/-- The reset state with some registers set, the given pc, and bytes loaded at an address. -/
def start (regs : List (Reg × Byte)) (pc : Pc) (at_ : Nat) (bytes : List Byte) : State :=
  loadFrom (regs.foldl (fun s rv => s.setReg rv.1 rv.2) (State.reset.setPc pc)) at_ bytes

/-- The answer is a next state with the property. -/
def nextWith (r : Result) (p : State → Bool) : Bool :=
  match r with
  | .next t => p t
  | .fault _ => false
  | .refused _ => false

theorem exists_of_nextWith {r : Result} {p : State → Bool} (h : nextWith r p = true) :
    ∃ t, r = .next t ∧ p t = true := by
  cases r with
  | next t => exact ⟨t, rfl, h⟩
  | fault _ => cases h
  | refused _ => cases h

/-- The step took this fault at this address with this opcode byte. -/
def tookFault (f : FaultInfo) (pc0 : Pc) (ir : Option Byte) (t : State) : Bool :=
  t.status = .faulted { info := f, pc0 := pc0, ir := ir }

/-! ### Ill-formed instructions are refused by the check (30_encoding.md R53, R55) -/

theorem test_wf_ldi : (Instr.ldi 8 0).wellFormed = false := by decide
theorem test_wf_prn : (Instr.prn 8).wellFormed = false := by decide
theorem test_wf_add_left : (Instr.add 8 0).wellFormed = false := by decide
theorem test_wf_add_right : (Instr.add 0 255).wellFormed = false := by decide
theorem test_wf_mul_left : (Instr.mul 9 1).wellFormed = false := by decide
theorem test_wf_mul_right : (Instr.mul 1 9).wellFormed = false := by decide
theorem test_wf_cmp_left : (Instr.cmp 16 1).wellFormed = false := by decide
theorem test_wf_cmp_right : (Instr.cmp 1 16).wellFormed = false := by decide
theorem test_wf_push : (Instr.push 8).wellFormed = false := by decide
theorem test_wf_pop : (Instr.pop 8).wellFormed = false := by decide
theorem test_wf_call : (Instr.call 12).wellFormed = false := by decide
theorem test_wf_jmp : (Instr.jmp 8).wellFormed = false := by decide
theorem test_wf_jeq : (Instr.jeq 9).wellFormed = false := by decide
theorem test_wf_jne : (Instr.jne 9).wellFormed = false := by decide
theorem test_wf_immediate_is_free : (Instr.ldi 7 255).wellFormed = true := by decide

/-! ### Decoding, words written out from 30_encoding.md R53 and R58 -/

/-- LDI R5, 200. -/
theorem test_decode_ldi : decode 0b10000010 0b00000101 0b11001000 = .ok (.ldi 5 200) := by decide
/-- PRN R3. -/
theorem test_decode_prn : decode 0b01000111 0b00000011 0b00000000 = .ok (.prn 3) := by decide
/-- HLT. -/
theorem test_decode_hlt : decode 0b00000001 0b00000111 0b00000111 = .ok (.hlt) := by decide
/-- ADD R2, R1. -/
theorem test_decode_add : decode 0b10100000 0b00000010 0b00000001 = .ok (.add 2 1) := by decide
/-- MUL R0, R7. -/
theorem test_decode_mul : decode 0b10100010 0b00000000 0b00000111 = .ok (.mul 0 7) := by decide
/-- CMP with left operand 4 and right operand byte 9. -/
theorem test_decode_cmp : decode 0b10100111 0b00000100 0b00001001 = .ok (.cmp 4 9) := by decide
/-- PUSH R6. -/
theorem test_decode_push : decode 0b01000101 0b00000110 0b00000001 = .ok (.push 6) := by decide
/-- POP R1. -/
theorem test_decode_pop : decode 0b01000110 0b00000001 0b00000000 = .ok (.pop 1) := by decide
/-- CALL R2. -/
theorem test_decode_call : decode 0b01010000 0b00000010 0b00000000 = .ok (.call 2) := by decide
/-- RET. -/
theorem test_decode_ret : decode 0b00010001 0b00000101 0b00000110 = .ok (.ret) := by decide
/-- JMP R3. -/
theorem test_decode_jmp : decode 0b01010100 0b00000011 0b00000000 = .ok (.jmp 3) := by decide
/-- JEQ R4. -/
theorem test_decode_jeq : decode 0b01010101 0b00000100 0b00000000 = .ok (.jeq 4) := by decide
/-- JNE with operand byte 255. -/
theorem test_decode_jne : decode 0b01010110 0b11111111 0b00000000 = .ok (.jne 255) := by decide

/-- 30_encoding.md R63: no NOP; LDI's low nibble with other upper bits; operand count 3; the LS-8 SUB byte; bits 5 and 4. -/
theorem test_decode_illegal :
    decode 0x00 0 0 = .error (.unknownOpcode 0x00) ∧ decode 0x02 0 0 = .error (.unknownOpcode 0x02) ∧
    decode 0xC0 0 0 = .error (.unknownOpcode 0xC0) ∧ decode 0xA1 0 1 = .error (.unsupportedAluOperation 0xA1) ∧
    decode 0xB1 0 0 = .error (.unsupportedAluOperation 0xB1) ∧ decode 0x20 0 0 = .error (.unsupportedAluOperation 0x20) := by
  decide

/-- LDI R0, 8 as one number, first byte lowest: 82 00 08. -/
theorem test_table_word : decodeTableWord 24 0x080082 = some (.ldi 0 8) := by decide

/-- Bits above nbits are zero: PRN of 16 bits, whatever stands above. -/
theorem test_table_word_cut : decodeTableWord 8 0xFF47 = some (.prn 0) := by decide

/-- A placed word is the next instruction run. -/
theorem test_withFetchWord :
    nextWith (step (State.reset.withFetchWord 24 0x080082)) (fun t => t.reg 0 = 8 && t.pc = 3) = true := by decide

/-! ### One step of each instruction (95_test_vectors.md section 2) -/

/-- L3: LDI R7, 0x80 moves the stack. -/
theorem test_ldi : nextWith (step (start [] 0 0 [0x82, 0x07, 0x80])) (fun t => t.reg 7 = 0x80 && t.pc = 3) = true := by decide
/-- L5. -/
theorem test_ldi_bad_register : nextWith (step (start [] 0 0 [0x82, 0x08, 0x01])) (fun t => tookFault (.memoryFault (.registerIndex 8)) 0 (some 0x82) t && t.pc = 0) = true := by decide
/-- N2. -/
theorem test_prn : nextWith (step (start [] 0 0 [0x47, 0x07])) (fun t => t.out = [244] && t.pc = 2) = true := by decide
/-- N4. -/
theorem test_prn_bad_register : nextWith (step (start [] 0 0 [0x47, 0xFF])) (fun t => tookFault (.memoryFault (.registerIndex 255)) 0 (some 0x47) t && t.out = []) = true := by decide
/-- D5: the last address an instruction runs from. -/
theorem test_hlt : nextWith (step (start [] 253 253 [0x01])) (fun t => t.status = .halted && t.pc = 254) = true := by decide
/-- D6. -/
theorem test_hlt_at_254 : nextWith (step (start [] 254 254 [0x01])) (fun t => tookFault (.memoryFault (.address 256)) 254 (some 0x01) t) = true := by decide
/-- A4. -/
theorem test_add : nextWith (step (start [(0, 0xF0), (1, 0x20)] 0 0 [0xA0, 0x00, 0x01])) (fun t => t.reg 0 = 0x10 && t.reg 1 = 0x20 && t.reg 4 = 0 && t.pc = 3) = true := by decide
/-- A12. -/
theorem test_add_left_checked_first : nextWith (step (start [] 0 0 [0xA0, 0x0A, 0x09])) (fun t => tookFault (.memoryFault (.registerIndex 10)) 0 (some 0xA0) t) = true := by decide
/-- M3. -/
theorem test_mul : nextWith (step (start [(0, 0xFF), (1, 0xFF)] 0 0 [0xA2, 0x00, 0x01])) (fun t => t.reg 0 = 0x01 && t.pc = 3) = true := by decide
/-- M9. -/
theorem test_mul_square : nextWith (step (start [(3, 0x11)] 0 0 [0xA2, 0x03, 0x03])) (fun t => t.reg 3 = 0x21) = true := by decide
/-- C1. -/
theorem test_cmp : nextWith (step (start [(0, 10), (1, 20), (4, 1)] 0 0 [0xA7, 0x00, 0x01])) (fun t => t.reg 4 = 0x04 && t.reg 0 = 10 && t.reg 1 = 20 && t.pc = 3) = true := by decide
/-- C8. -/
theorem test_cmp_flags_operand : nextWith (step (start [(4, 4), (0, 1)] 0 0 [0xA7, 0x04, 0x00])) (fun t => t.reg 4 = 0x02) = true := by decide
/-- K2: PUSH R7 pushes the decremented value. -/
theorem test_push_sp : nextWith (step (start [] 0 0 [0x45, 0x07])) (fun t => t.reg 7 = 0xF3 && memRead t 0xF3 = .ok 0xF3 && t.pc = 2) = true := by decide
/-- K4. -/
theorem test_push_overflow : nextWith (step (start [(7, 0)] 0 0 [0x45, 0x00])) (fun t => tookFault (.memoryFault (.address (-1))) 0 (some 0x45) t && t.reg 7 = 0) = true := by decide
/-- K8: POP R7 leaves the popped byte plus 1. -/
theorem test_pop_sp : nextWith (step (loadByte (start [(7, 0xF3)] 0 0 [0x46, 0x07]) 0xF3 0x20)) (fun t => t.reg 7 = 0x21) = true := by decide
/-- K10. -/
theorem test_pop_sp_256 : nextWith (step (loadByte (start [(7, 0x80)] 0 0 [0x46, 0x07]) 0x80 0xFF)) (fun t => tookFault (.memoryFault (.stackPointer 256)) 0 (some 0x46) t && t.reg 7 = 0x80) = true := by decide
/-- F1. -/
theorem test_call : nextWith (step (start [(1, 0x40)] 0x10 0x10 [0x50, 0x01])) (fun t => t.reg 7 = 0xF3 && memRead t 0xF3 = .ok 0x12 && t.pc = 0x40) = true := by decide
/-- F2: CALL R7 reads the target after the decrement. -/
theorem test_call_sp : nextWith (step (start [] 0x10 0x10 [0x50, 0x07])) (fun t => t.reg 7 = 0xF3 && t.pc = 0xF3) = true := by decide
/-- F7. -/
theorem test_ret : nextWith (step (loadByte (start [(7, 0xFE)] 0x10 0x10 [0x11]) 0xFE 0xFE)) (fun t => t.reg 7 = 0xFF && t.pc = 0xFE) = true := by decide
/-- F6. -/
theorem test_ret_256 : nextWith (step (start [(7, 0xFF)] 0x10 0x10 [0x11])) (fun t => tookFault (.memoryFault (.stackPointer 256)) 0x10 (some 0x11) t && t.pc = 0x10) = true := by decide
/-- F8. -/
theorem test_jmp : nextWith (step (start [(2, 0x20)] 0x10 0x10 [0x54, 0x02])) (fun t => t.pc = 0x20) = true := by decide
/-- F10. -/
theorem test_jmp_bad_register : nextWith (step (start [] 0x10 0x10 [0x54, 0x08])) (fun t => tookFault (.memoryFault (.registerIndex 8)) 0x10 (some 0x54) t) = true := by decide
/-- F14: only bit 0 counts. -/
theorem test_jeq : nextWith (step (start [(4, 3), (2, 0x30)] 0x10 0x10 [0x55, 0x02])) (fun t => t.pc = 0x30 && t.reg 4 = 3) = true := by decide
/-- F15: the operand of a jump not taken is not checked. -/
theorem test_jeq_not_taken : nextWith (step (start [(4, 2)] 0x10 0x10 [0x55, 0x09])) (fun t => t.pc = 0x12 && t.status = .running) = true := by decide
/-- F20. -/
theorem test_jne : nextWith (step (start [(4, 0xFE), (3, 0x0C)] 0x10 0x10 [0x56, 0x03])) (fun t => t.pc = 0x0C) = true := by decide
/-- F21. -/
theorem test_jne_not_taken : nextWith (step (start [(4, 1)] 0x10 0x10 [0x56, 0x09])) (fun t => t.pc = 0x12 && t.status = .running) = true := by decide
/-- D1: the first step of empty memory. -/
theorem test_unknown_opcode : nextWith (step (State.reset)) (fun t => tookFault (.unknownOpcode 0) 0 (some 0) t) = true := by decide
/-- U4: the decode fault precedes the operand fault. -/
theorem test_unsupported_alu : nextWith (step (start [] 0 0 [0xA8, 0x09, 0x09])) (fun t => tookFault (.unsupportedAluOperation 0xA8) 0 (some 0xA8) t) = true := by decide
/-- D8. -/
theorem test_pc_reaches_256 : nextWith (step (start [] 253 253 [0x82, 0x01, 0x77])) (fun t => t.reg 1 = 0x77 && t.pc = 256) = true := by decide
/-- D8, its next step. -/
theorem test_fetch_at_256 : nextWith (step (start [] 256 0 [])) (fun t => tookFault (.memoryFault (.address 256)) 256 none t) = true := by decide


/-! ### Witnesses: for each statement, states and operands that meet its hypotheses together, each clause at a boundary -/

theorem exists_next {r : Result} (h : nextWith r (fun _ => true) = true) : ∃ t, r = .next t :=
  (exists_of_nextWith h).imp fun _ ht => ht.1

theorem exists_next_and {r : Result} {P : State → Prop} [DecidablePred P] (h : nextWith r (fun t => decide (P t)) = true) :
    ∃ t, r = .next t ∧ P t :=
  (exists_of_nextWith h).imp fun _ ht => ⟨ht.1, of_decide_eq_true ht.2⟩

theorem notFaulted_of_running {t : State} (h : t.status = .running) : t.NotFaulted := fun r hr => by
  rw [h] at hr; cases hr

theorem inv_of_running {s : State} (hm : Memory.wf s.mem) (hp : s.pc.toNat ≤ 256) (hs : s.status = .running) : s.Inv :=
  ⟨hm, hp, fun r hr => absurd hr (notFaulted_of_running hs r)⟩

/-- An empty machine about to fetch at the last address an instruction runs from. -/
def last : State := start [] 253 0 []

/-- A running machine whose instruction is JMP R0 to its own address. -/
def spin : State := start [] 0 0 [0x54#8]

theorem runSteps_spin (k : Nat) : runSteps k spin = .next spin := by
  have h : ∃ t, step spin = .next t ∧ t = spin := exists_next_and (by decide)
  obtain ⟨t, ht, rfl⟩ := h
  induction k with
  | zero => exact runSteps_zero spin
  | succ k ih => rw [runSteps_succ_of_next ht]; exact ih

theorem witness_ResetStackPointerAndFlags :
    (0#8).toNat ≤ 7 ∧ (7#8).toNat ≤ 7 ∧ ∃ t, exec (.cmp 0#8 7#8) State.reset = .next t :=
  ⟨by decide, by decide, exists_next (by decide)⟩

theorem witness_ResetRemainingState :
    ((0 : Reg) ∈ ([0, 1, 2, 3, 5, 6] : List Reg) ∧ (6 : Reg) ∈ ([0, 1, 2, 3, 5, 6] : List Reg)) ∧
    ((0 : Int) ≤ 0 ∧ (0 : Int) ≤ 255) ∧ (0 : Int) ≤ 255 ∧ (255 : Int) ≤ 255 := by decide

theorem witness_LaunchHoldsImage :
    (List.replicate 0 1#8).length ≤ 256 ∧ (List.replicate 256 1#8).length ≤ 256 ∧
    256 < (List.replicate 257 1#8).length := by
  refine ⟨?_, ?_, ?_⟩ <;> rw [List.length_replicate] <;> omega

/-- A fault taken, and an instruction executed. -/
theorem witness_StepKeepsInvariant :
    (State.reset.Inv ∧ ∃ t, step State.reset = .next t) ∧
    ((start [] 253 253 [0x45#8]).Inv ∧ ∃ t, step (start [] 253 253 [0x45#8]) = .next t) :=
  ⟨⟨inv_of_running (by decide) (by decide) rfl, exists_next (by decide)⟩,
   ⟨inv_of_running (by decide) (by decide) (by decide), exists_next (by decide)⟩⟩

theorem witness_UnownedOperandBytesIgnored :
    (decode 0x47#8 3#8 9#8 = .ok (.prn 3#8) ∧ ((0x47#8) >>> 6).toNat = 1) ∧
    (decode 0x11#8 3#8 9#8 = .ok .ret ∧ ((0x11#8) >>> 6).toNat = 0) := by decide

theorem witness_StepDefinedExactlyWhileRunning :
    State.reset.status = .running ∧ (State.reset.setStatus .halted).status = .halted ∧
    (State.reset.withFault (.unknownOpcode 0#8) (some 0#8)).status =
      .faulted { info := .unknownOpcode 0#8, pc0 := 0#9, ir := some 0#8 } := by decide

theorem witness_StepRunsDecodedInstruction :
    (start [] 253 253 [0x47#8, 3#8, 9#8]).status = .running ∧
    (start [] 253 253 [0x47#8, 3#8, 9#8]).Fetches 0x47#8 3#8 9#8 ∧
    encode (.prn 3#8) <+: [0x47#8, 3#8, 9#8] ∧ decode 0x47#8 3#8 9#8 = .ok (.prn 3#8) := by decide

theorem witness_FetchFaultsAboveTwoFiveThree :
    last.Fetches 0#8 0#8 0#8 ∧ last.pc.toNat = 253 ∧
    ((start [] 254 254 [0x01#8]).status = .running ∧ (start [] 254 254 [0x01#8]).pc.toNat = 254 ∧
      memRead (start [] 254 254 [0x01#8]) 254 = .ok 0x01#8) ∧
    ((start [] 255 255 [0x45#8]).status = .running ∧ (start [] 255 255 [0x45#8]).pc.toNat = 255 ∧
      memRead (start [] 255 255 [0x45#8]) 255 = .ok 0x45#8) ∧
    (start [] 256 0 []).status = .running ∧ (start [] 256 0 []).pc.toNat = 256 := by decide

theorem witness_IllegalOpcodeFaults :
    ((start [] 0 0 [0xA1#8]).status = .running ∧ (start [] 0 0 [0xA1#8]).Fetches 0xA1#8 0#8 0#8 ∧
      (0xA1#8).getLsbD 5 = true ∧ 0xA1#8 ≠ 0xA0#8 ∧ 0xA1#8 ≠ 0xA2#8 ∧ 0xA1#8 ≠ 0xA7#8) ∧
    (last.status = .running ∧ last.Fetches 0#8 0#8 0#8 ∧ (0#8).getLsbD 5 = false ∧
      0#8 ∉ ([0x82#8, 0x47#8, 0x01#8, 0x45#8, 0x46#8, 0x50#8, 0x11#8, 0x54#8, 0x55#8, 0x56#8] : List Byte)) := by decide

theorem witness_StatusTransitions :
    (∃ t, step spin = .next t ∧ t.status = .running) ∧
    (∃ t, step (start [] 253 253 [0x01#8]) = .next t ∧ t.status = .halted) ∧
    ∃ t, step State.reset = .next t ∧
      t.status = .faulted { info := .unknownOpcode 0#8, pc0 := 0#9, ir := some 0#8 } :=
  ⟨exists_next_and (by decide), exists_next_and (by decide), exists_next_and (by decide)⟩

/-- A record with an opcode byte, and one without. -/
theorem witness_FaultsArePrecise :
    (∃ t, step (start [] 255 255 [0x45#8]) = .next t ∧
      t.status = .faulted { info := .memoryFault (.address 256), pc0 := 255#9, ir := some 0x45#8 }) ∧
    ∃ t, step (start [] 256 0 []) = .next t ∧
      t.status = .faulted { info := .memoryFault (.address 256), pc0 := 256#9, ir := none } :=
  ⟨exists_next_and (by decide), exists_next_and (by decide)⟩

theorem witness_StepWritesOnlyNamedRegisters :
    ∃ t, step (start [] 0 0 [0x82#8, 7#8, 1#8]) = .next t ∧ t.reg 7 ≠ (start [] 0 0 [0x82#8, 7#8, 1#8]).reg 7 :=
  exists_next_and (by decide)

/-- A PUSH that stores at address 0, and a CALL that stores at 254. -/
theorem witness_MemoryChangesOnlyByPushes :
    (∃ t, step (start [(7, 1#8), (0, 9#8)] 16 16 [0x45#8]) = .next t ∧
      memRead t 0 ≠ memRead (start [(7, 1#8), (0, 9#8)] 16 16 [0x45#8]) 0) ∧
    ∃ t, step (start [(7, 255#8)] 16 16 [0x50#8]) = .next t ∧
      memRead t 254 ≠ memRead (start [(7, 255#8)] 16 16 [0x50#8]) 254 :=
  ⟨exists_next_and (by decide), exists_next_and (by decide)⟩

theorem witness_OutputGrowsOnlyByPrn :
    ∃ t, step (start [] 253 253 [0x47#8]) = .next t ∧ t.out ≠ (start [] 253 253 [0x47#8]).out :=
  exists_next_and (by decide)

/-- PRN, then a fault. -/
theorem witness_OutputNeverTakenBack : ∃ t, runSteps 2 (start [] 0 0 [0x47#8, 7#8]) = .next t :=
  exists_next (by decide)

theorem witness_OutputIsNeverRead : ∃ t, step (start [] 0 0 [0x47#8, 7#8]) = .next t := exists_next (by decide)

/-- Three bytes at the last address, and a branch not taken. -/
theorem witness_PcAdvancesUnlessTransfer :
    ((start [] 253 253 [0x82#8]).Fetches 0x82#8 0#8 0#8 ∧ decode 0x82#8 0#8 0#8 = .ok (.ldi 0#8 0#8) ∧
      (∃ t, step (start [] 253 253 [0x82#8]) = .next t ∧ t.NotFaulted) ∧
      ¬ Transfers (start [] 253 253 [0x82#8]) (.ldi 0#8 0#8)) ∧
    ((start [] 0 0 [0x55#8, 9#8]).Fetches 0x55#8 9#8 0#8 ∧ decode 0x55#8 9#8 0#8 = .ok (.jeq 9#8) ∧
      (∃ t, step (start [] 0 0 [0x55#8, 9#8]) = .next t ∧ t.NotFaulted) ∧
      ¬ Transfers (start [] 0 0 [0x55#8, 9#8]) (.jeq 9#8)) := by
  have h1 : ∃ t, step (start [] 253 253 [0x82#8]) = .next t ∧ t.status = .running := exists_next_and (by decide)
  have h2 : ∃ t, step (start [] 0 0 [0x55#8, 9#8]) = .next t ∧ t.status = .running := exists_next_and (by decide)
  refine ⟨⟨by decide, by decide, h1.imp fun _ h => ⟨h.1, notFaulted_of_running h.2⟩, fun h => h⟩,
    ⟨by decide, by decide, h2.imp fun _ h => ⟨h.1, notFaulted_of_running h.2⟩, fun h => ?_⟩⟩
  exact absurd (show ((start [] 0 0 [0x55#8, 9#8]).reg Config.FL).getLsbD 0 = true from h) (by decide)

theorem witness_MemoryReadAndWrite :
    Memory.wf State.reset.mem ∧ ((0 : Int) ≤ 0 ∧ (0 : Int) ≤ 255) ∧ ((0 : Int) ≤ 255 ∧ (255 : Int) ≤ 255) ∧
    ((-1 : Int) < 0 ∨ (255 : Int) < -1) ∧ ((256 : Int) < 0 ∨ (255 : Int) < 256) := by decide

/-- The byte 0x47 pushed at address 253 is fetched as an opcode, at 254 as each operand byte. -/
theorem witness_PushedByteIsFetched :
    (Memory.wf (start [(7, 254#8), (0, 0x47#8)] 0 0 []).mem ∧ (0#8).toNat = (0 : Reg).val ∧
      pushAddress (start [(7, 254#8), (0, 0x47#8)] 0 0 []) = .ok 253#8 ∧
      ∃ t, exec (.push 0#8) (start [(7, 254#8), (0, 0x47#8)] 0 0 []) = .next t ∧
        (t.setPc 253#9).mem = t.mem ∧ (t.setPc 253#9).Fetches 0x47#8 0#8 0#8 ∧ (t.setPc 253#9).pc.toNat = (253#8).toNat) ∧
    (Memory.wf (start [(7, 255#8), (0, 0x47#8)] 0 0 []).mem ∧
      pushAddress (start [(7, 255#8), (0, 0x47#8)] 0 0 []) = .ok 254#8 ∧
      ∃ t, exec (.push 0#8) (start [(7, 255#8), (0, 0x47#8)] 0 0 []) = .next t ∧
        ((t.setPc 253#9).mem = t.mem ∧ (t.setPc 253#9).Fetches 0#8 0x47#8 0#8 ∧
          (t.setPc 253#9).pc.toNat + 1 = (254#8).toNat) ∧
        ((t.setPc 252#9).mem = t.mem ∧ (t.setPc 252#9).Fetches 0#8 0#8 0x47#8 ∧
          (t.setPc 252#9).pc.toNat + 2 = (254#8).toNat)) :=
  ⟨⟨by decide, by decide, by decide, exists_next_and (by decide)⟩, by decide, by decide, exists_next_and (by decide)⟩

theorem witness_LdiLoadsImmediate :
    ((0#8).toNat = (0 : Reg).val ∧ State.reset.Fetchable) ∧ (7#8).toNat = (7 : Reg).val ∧ last.Fetchable := by decide

theorem witness_PrnEmitsRegister :
    ((0#8).toNat = (0 : Reg).val ∧ State.reset.Fetchable) ∧ (7#8).toNat = (7 : Reg).val ∧ last.Fetchable := by decide

theorem witness_HltHalts : State.reset.Fetchable ∧ last.Fetchable := by decide

/-- The subtraction clause at k = 0 and k = 256, the zero clause, each ALU operation, and a CMP that completes. -/
theorem witness_AddAndMulAreExactModulo :
    ((0#8).toNat = (0 : Reg).val ∧ (7#8).toNat = (7 : Reg).val ∧ last.Fetchable) ∧
    (0 ≤ 256 ∧ (last.reg 1).toNat = (256 - 0) % 256 ∧ (last.reg 1).toNat = (256 - 256) % 256 ∧ last.reg 1 = 0#8) ∧
    ((0xA0#8).getLsbD 5 = true ∧ decode 0xA0#8 0#8 1#8 = .ok (.add 0#8 1#8)) ∧
    ((0xA2#8).getLsbD 5 = true ∧ decode 0xA2#8 0#8 1#8 = .ok (.mul 0#8 1#8)) ∧
    ((0xA7#8).getLsbD 5 = true ∧ decode 0xA7#8 0#8 1#8 = .ok (.cmp 0#8 1#8)) ∧
    ∃ t, exec (.cmp 0#8 7#8) last = .next t :=
  ⟨by decide, by decide, by decide, by decide, by decide, exists_next (by decide)⟩

/-- Equal, greater and less at the ends of the range. -/
theorem witness_CmpSetsExactlyOneFlag :
    ((4#8).toNat = (4 : Reg).val ∧ (7#8).toNat = (7 : Reg).val ∧ last.Fetchable) ∧
    ((start [(4, 255#8), (7, 255#8)] 253 0 []).reg 4).toNat = ((start [(4, 255#8), (7, 255#8)] 253 0 []).reg 7).toNat ∧
    ((start [(4, 255#8), (7, 0#8)] 253 0 []).reg 4).toNat > ((start [(4, 255#8), (7, 0#8)] 253 0 []).reg 7).toNat ∧
    ((start [(4, 0#8), (7, 255#8)] 253 0 []).reg 4).toNat < ((start [(4, 0#8), (7, 255#8)] 253 0 []).reg 7).toNat := by
  decide

theorem witness_PushStoresBelowStackPointer :
    (7#8).toNat = (7 : Reg).val ∧ (start [(7, 1#8)] 253 0 []).Fetchable ∧
    Memory.wf (start [(7, 1#8)] 253 0 []).mem ∧ (start [(7, 1#8)] 253 0 []).reg 7 ≠ 0#8 := by decide

theorem witness_PopLoadsFromStackPointer :
    ((0#8).toNat = (0 : Reg).val ∧ (start [(7, 254#8)] 253 0 []).Fetchable ∧
      memRead (start [(7, 254#8)] 253 0 []) (byteInt ((start [(7, 254#8)] 253 0 []).reg 7)) = .ok 0#8 ∧
      (0 : Reg) ≠ 7 ∧ (start [(7, 254#8)] 253 0 []).reg 7 ≠ 0xFF#8) ∧
    ((7#8).toNat = (7 : Reg).val ∧ (start [(7, 255#8)] 253 255 [254#8]).Fetchable ∧
      memRead (start [(7, 255#8)] 253 255 [254#8]) (byteInt ((start [(7, 255#8)] 253 255 [254#8]).reg 7)) = .ok 254#8 ∧
      (7 : Reg) = 7 ∧ 254#8 ≠ 0xFF#8) := by decide

theorem witness_PushPopRoundTrip :
    (0#8).toNat = (0 : Reg).val ∧ (6#8).toNat = (6 : Reg).val ∧ (0 : Reg) ≠ 7 ∧ (6 : Reg) ≠ 7 ∧
    Memory.wf (start [(7, 1#8)] 0 0 []).mem ∧ (start [(7, 1#8)] 0 0 []).reg 7 ≠ 0#8 := by decide

theorem witness_CallPushesReturnAddress :
    (7#8).toNat = (7 : Reg).val ∧ (start [(7, 1#8)] 253 0 []).Fetchable ∧
    Memory.wf (start [(7, 1#8)] 253 0 []).mem ∧ (start [(7, 1#8)] 253 0 []).reg 7 ≠ 0#8 := by decide

theorem witness_RetPopsProgramCounter :
    memRead (start [(7, 254#8)] 0 254 [255#8]) (byteInt ((start [(7, 254#8)] 0 254 [255#8]).reg 7)) = .ok 255#8 ∧
    (start [(7, 254#8)] 0 254 [255#8]).reg 7 ≠ 0xFF#8 := by decide

theorem witness_CallRetRoundTrip :
    (1#8).toNat = (1 : Reg).val ∧ last.Fetchable ∧ Memory.wf last.mem ∧ last.reg 7 ≠ 0#8 ∧
    ∃ t, exec (.call 1#8) last = .next t ∧ (t.setPc 0x30#9).reg 7 = t.reg 7 ∧
      memRead (t.setPc 0x30#9) (byteInt (t.reg 7)) = memRead t (byteInt (t.reg 7)) :=
  ⟨by decide, by decide, by decide, by decide, exists_next_and (by decide)⟩

theorem witness_JmpGoesToRegister : (0#8).toNat = (0 : Reg).val ∧ (7#8).toNat = (7 : Reg).val := by decide

theorem witness_JeqTakenIffEqualBit :
    (((start [(4, 1#8)] 0 0 []).reg 4).getLsbD 0 = true ∧ (7#8).toNat = (7 : Reg).val) ∧
    ((start [(4, 0xFE#8)] 253 0 []).reg 4).getLsbD 0 = false ∧ (start [(4, 0xFE#8)] 253 0 []).Fetchable := by decide

theorem witness_JneTakenIffEqualBitClear :
    (((start [(4, 0xFE#8)] 0 0 []).reg 4).getLsbD 0 = false ∧ (7#8).toNat = (7 : Reg).val) ∧
    ((start [(4, 1#8)] 253 0 []).reg 4).getLsbD 0 = true ∧ (start [(4, 1#8)] 253 0 []).Fetchable := by decide

/-- The two outcomes of the comparison. -/
theorem witness_BranchAfterCmpFollowsComparison :
    ((0#8).toNat = (0 : Reg).val ∧ (1#8).toNat = (1 : Reg).val ∧ (7#8).toNat = (7 : Reg).val) ∧
    (State.reset.reg 0 = State.reset.reg 1 ∧ ∃ t, exec (.cmp 0#8 1#8) State.reset = .next t ∧ t.Fetchable) ∧
    State.reset.reg 0 ≠ State.reset.reg 7 ∧ ∃ t, exec (.cmp 0#8 7#8) State.reset = .next t ∧ t.Fetchable :=
  ⟨by decide, ⟨by decide, exists_next_and (by decide)⟩, by decide, exists_next_and (by decide)⟩

theorem witness_JumpToSelfNeverEnds :
    spin.status = .running ∧ spin.Runs (.jmp 0#8) ∧ (0#8).toNat = (0 : Reg).val ∧
    (spin.reg 0).toNat = spin.pc.toNat :=
  ⟨by decide, ⟨0x54#8, 0#8, 0#8, by decide, by decide⟩, by decide, by decide⟩

theorem witness_RegisterOperandAboveSevenFaults :
    8 ≤ (8#8).toNat ∧ 8 ≤ (255#8).toNat ∧ ((start [(4, 1#8)] 0 0 []).reg 4).getLsbD 0 = true ∧
    (State.reset.reg 4).getLsbD 0 = false := by decide

/-- The left operand bad beside a bad right one, and the right operand bad alone. -/
theorem witness_AluOperandsCheckedLeftFirst :
    (8 ≤ (8#8).toNat ∧ (8#8 = 8#8 ∨ ((8#8).toNat ≤ 7 ∧ 255#8 = 8#8))) ∧
    (8 ≤ (255#8).toNat ∧ (7#8 = 255#8 ∨ ((7#8).toNat ≤ 7 ∧ 255#8 = 255#8))) := by decide

/-- The four clauses; a pop into register 7 meets only its own. -/
theorem witness_StackPointerRangeFaults :
    ((7#8).toNat ≤ 7 ∧ (start [(7, 0#8)] 0 0 []).reg 7 = 0#8) ∧
    ((6#8).toNat ≤ 7 ∧ 6#8 ≠ 7#8 ∧ (start [(7, 255#8)] 0 0 []).reg 7 = 0xFF#8) ∧
    memRead (start [(7, 255#8)] 0 255 [255#8]) (byteInt ((start [(7, 255#8)] 0 255 [255#8]).reg 7)) = .ok 0xFF#8 ∧
    (start [(7, 255#8)] 0 0 []).reg 7 = 0xFF#8 := by decide

/-- A run that goes on, and a run that has ended after its first step. -/
theorem witness_RunEndsHaltedOrFaulted :
    (spin.status = .running ∧ ∃ t, runSteps 3 spin = .next t) ∧
    State.reset.status = .running ∧ ∃ t, runSteps 1 State.reset = .next t ∧
      t.status = .faulted { info := .unknownOpcode 0#8, pc0 := 0#9, ir := some 0#8 } :=
  ⟨⟨by decide, exists_next (by decide)⟩, by decide, exists_next_and (by decide)⟩

theorem witness_EndlessRunRepeatsState : spin.Inv ∧ ∀ k, ∃ t, runSteps k spin = .next t :=
  ⟨inv_of_running (by decide) (by decide) (by decide), fun k => ⟨spin, runSteps_spin k⟩⟩

end Sys2Proof.Tests
end

/-! The run status (10_state.md R25): what one step can do to it. -/

namespace Sys2Proof.Machine

variable {s t : State} {i : Instr}

/-- A step that answers starts from Running, and either takes a fault or is the instruction it fetched. -/
theorem step_next_cases (h : step s = .next t) :
    s.status = .running ∧ ((∃ f ir, t = s.withFault f ir) ∨ ∃ i, s.Runs i ∧ exec i s = .next t) := by
  rcases step_cases s with ⟨-, e⟩ | ⟨r, -, e⟩ | ⟨hs, ⟨f, o, -, e⟩ | ⟨ir, opa, opb, d, -, -, e⟩ | ⟨ir, opa, opb, i, hf, hd, e⟩⟩
  all_goals rw [e] at h
  · cases h
  · cases h
  · exact ⟨hs, .inl ⟨f, o, (Host.Outcome.next.inj h).symm⟩⟩
  · exact ⟨hs, .inl ⟨faultOfReject d, some ir, (Host.Outcome.next.inj h).symm⟩⟩
  · exact ⟨hs, .inr ⟨i, ⟨ir, opa, opb, hf, hd⟩, h⟩⟩

theorem step_of_runs (hs : s.status = .running) (hr : s.Runs i) : step s = exec i s := by
  obtain ⟨ir, opa, opb, hf, hd⟩ := hr
  rw [step_of_running hs, runOne_of_decode_ok hf hd]

theorem exec_hlt_status (h : exec .hlt s = .next t) : t.status = .halted := by
  rw [execHlt_cases h, setStatus_status]

/-- Every instruction but HLT keeps the status, unless it takes a fault. -/
theorem exec_keeps_status_or_faults (hi : i ≠ .hlt) (h : exec i s = .next t) :
    t.status = s.status ∨ ∃ f ir, t = s.withFault f ir := by
  cases i with
  | hlt => exact absurd rfl hi
  | ldi a imm =>
    rcases execLdi_cases h with ⟨_, -, rfl⟩ | ⟨-, rfl⟩
    · exact .inl rfl
    · exact .inr ⟨_, _, rfl⟩
  | prn a =>
    rcases execPrn_cases h with ⟨_, -, rfl⟩ | ⟨-, rfl⟩
    · exact .inl rfl
    · exact .inr ⟨_, _, rfl⟩
  | add a b | mul a b =>
    rcases aluBinary_cases h with ⟨_, _, -, -, rfl⟩ | ⟨_, -, -, rfl⟩
    · exact .inl rfl
    · exact .inr ⟨_, _, rfl⟩
  | cmp a b =>
    rcases execCmp_cases h with ⟨_, _, -, -, rfl⟩ | ⟨_, -, -, rfl⟩
    · exact .inl rfl
    · exact .inr ⟨_, _, rfl⟩
  | push a =>
    rcases execPush_cases h with ⟨_, _, -, -, -, rfl⟩ | ⟨-, rfl⟩ | ⟨-, rfl⟩
    · exact .inl rfl
    · exact .inr ⟨_, _, rfl⟩
    · exact .inr ⟨_, _, rfl⟩
  | pop a =>
    rcases execPop_cases h with ⟨_, _, _, -, -, -, rfl⟩ | ⟨-, rfl⟩ | rfl
    · exact .inl rfl
    · exact .inr ⟨_, _, rfl⟩
    · exact .inr ⟨_, _, rfl⟩
  | call a =>
    rcases execCall_cases h with ⟨_, _, -, -, -, rfl⟩ | ⟨-, rfl⟩ | ⟨-, rfl⟩
    · exact .inl rfl
    · exact .inr ⟨_, _, rfl⟩
    · exact .inr ⟨_, _, rfl⟩
  | ret =>
    rw [exec_ret] at h
    rcases execRet_cases h with ⟨_, -, rfl⟩ | ⟨-, rfl⟩
    · exact .inl rfl
    · exact .inr ⟨_, _, rfl⟩
  | jmp a =>
    rcases execJmp_cases h with ⟨_, -, rfl⟩ | ⟨-, rfl⟩
    · exact .inl rfl
    · exact .inr ⟨_, _, rfl⟩
  | jeq a | jne a =>
    rcases jumpIf_cases h with ⟨-, _, -, rfl⟩ | ⟨-, -, rfl⟩ | ⟨-, rfl⟩
    · exact .inl rfl
    · exact .inr ⟨_, _, rfl⟩
    · exact .inl rfl

/-- Everything a step can do to the status: keep it Running, halt by an HLT, or take a fault. -/
theorem step_status_cases (h : step s = .next t) :
    t.status = .running ∨ (t.status = .halted ∧ s.Runs .hlt) ∨ ∃ f ir, t = s.withFault f ir := by
  obtain ⟨hs, hfault | ⟨i, hr, he⟩⟩ := step_next_cases h
  · exact .inr (.inr hfault)
  · by_cases hi : i = .hlt
    · subst hi
      exact .inr (.inl ⟨exec_hlt_status he, hr⟩)
    · rcases exec_keeps_status_or_faults hi he with hk | hfault
      · exact .inl (hk.trans hs)
      · exact .inr (.inr hfault)

theorem step_halts_iff (h : step s = .next t) : t.status = .halted ↔ s.Runs .hlt := by
  constructor
  · intro ht
    rcases step_status_cases h with hk | ⟨-, hr⟩ | ⟨f, ir, rfl⟩
    · rw [ht] at hk; cases hk
    · exact hr
    · cases ht
  · intro hr
    obtain ⟨hs, -⟩ := step_next_cases h
    exact exec_hlt_status ((step_of_runs hs hr).symm.trans h)

theorem step_faulted_is_raise {r : FaultRecord} (h : step s = .next t) (ht : t.status = .faulted r) :
    ∃ f ir, step s = raiseFault f ir s := by
  rcases step_status_cases h with hk | ⟨hk, -⟩ | ⟨f, ir, rfl⟩
  · rw [ht] at hk; cases hk
  · rw [ht] at hk; cases hk
  · exact ⟨f, ir, h⟩

/-- Settles O14: one lemma says what a step can do to the status, and each clause excludes the other outcomes. -/
theorem statusTransitions : Obligations.StatusTransitions := by
  refine ⟨rfl, fun s t h => ?_⟩
  obtain ⟨hs, -⟩ := step_next_cases h
  exact ⟨hs, step_halts_iff h, fun r ht => step_faulted_is_raise h ht⟩

end Sys2Proof.Machine

/-! The ALU (41_alu.md): what ADD, MUL and CMP of valid register operands leave, and the laws of their results. -/

namespace Sys2Proof.Machine

variable {s t : State} {a b ir opa opb : Byte} {ra rb : Reg} {i : Instr}

/-! ### The byte operations -/

/-- The exact sum reduced mod 256 is the sum of 8-bit words, signed or unsigned (41_alu.md R86). -/
theorem addBytes_eq_add (x y : Byte) : addBytes x y = x + y :=
  BitVec.eq_of_toNat_eq (by rw [addBytes, BitVec.toNat_ofNat, BitVec.toNat_add])

/-- The exact product reduced mod 256 is the product of 8-bit words, signed or unsigned (41_alu.md R86). -/
theorem mulBytes_eq_mul (x y : Byte) : mulBytes x y = x * y :=
  BitVec.eq_of_toNat_eq (by rw [mulBytes, BitVec.toNat_ofNat, BitVec.toNat_mul])

/-- The machine subtracts by adding the complement 256 - k (41_alu.md R86). -/
theorem toNat_add_complement {x y : Byte} {k : Nat} (hk : k ≤ 256) (hy : y.toNat = (256 - k) % 256) :
    ((x + y).toNat : Int) = ((x.toNat : Int) - k) % 256 := by
  rw [BitVec.toNat_add]
  omega

theorem compareFlags_less_iff (l r : Byte) : (compareFlags l r).getLsbD 2 = true ↔ l.toNat < r.toNat := by
  unfold compareFlags
  split_ifs with heq hgt
  · exact iff_of_false (by decide) (by omega)
  · exact iff_of_false (by decide) (by omega)
  · exact iff_of_true (by decide) (by omega)

theorem compareFlags_greater_iff (l r : Byte) : (compareFlags l r).getLsbD 1 = true ↔ l.toNat > r.toNat := by
  unfold compareFlags
  split_ifs with heq hgt
  · exact iff_of_false (by decide) (by omega)
  · exact iff_of_true (by decide) hgt
  · exact iff_of_false (by decide) hgt

/-! ### The operations on the state -/

/-- With valid operands ADD and MUL cannot fault: the result goes to the left register, and beside it only pc changes. -/
theorem aluBinary_completes (op : Byte → Byte → Byte) (hn : operandCount ir = 2#2)
    (ha : a.toNat = ra.val) (hb : b.toNat = rb.val) (hs : s.Fetchable) :
    ∃ t, aluBinary op ir a b s = .next t ∧ t.reg ra = op (s.reg ra) (s.reg rb) ∧
      SameRegsExcept [ra] s t ∧ SameMemory s t ∧ t.out = s.out ∧ t.status = s.status ∧
      t.pc.toNat = s.pc.toNat + 3 := by
  refine ⟨(s.setReg ra (op (s.reg ra) (s.reg rb))).advance ir, ?_, by simp, ?_, sameMemory_of_mem rfl, rfl, rfl, ?_⟩
  · simp [aluBinary, regIdx_of_eq ha, regIdx_of_eq hb]
  · intro q hq
    exact setReg_reg_of_ne s ra _ (List.ne_of_not_mem_cons hq)
  · rw [advance_pc, setReg_pc, nextPc_toNat hs, hn]
    rfl

/-- With valid operands CMP writes the comparison of the two registers, as they were, to the flags register. -/
theorem exec_cmp_of_registers (ha : a.toNat = ra.val) (hb : b.toNat = rb.val) :
    exec (.cmp a b) s = .next ((s.setReg Config.FL (compareFlags (s.reg ra) (s.reg rb))).advance 0xA7#8) := by
  simp [exec_cmp, execCmp, regIdx_of_eq ha, regIdx_of_eq hb]

theorem flags_of_cmp (ha : a.toNat = ra.val) (hb : b.toNat = rb.val) (h : exec (.cmp a b) s = .next t) :
    t.flags = compareFlags (s.reg ra) (s.reg rb) := by
  rw [exec_cmp_of_registers ha hb] at h
  cases h
  exact setReg_reg_self ..

/-! ### The ALU's decoder -/

/-- The ALU has three operations and no other (41_alu.md R86, R93). -/
theorem decode_alu_cases (hir : isAlu ir = true) (h : decode ir opa opb = .ok i) :
    i = .add opa opb ∨ i = .mul opa opb ∨ i = .cmp opa opb := by
  rw [decode, if_pos hir] at h
  unfold decodeAlu at h
  split_ifs at h
  all_goals cases h
  · exact .inl rfl
  · exact .inr (.inl rfl)
  · exact .inr (.inr rfl)

/-- Settles O27: ADD and MUL share one completion lemma and differ in the byte operation, which is that of 8-bit words; the
ALU's decoder has three branches; CMP's flags are the unsigned relations. -/
theorem addAndMulAreExactModulo : Obligations.AddAndMulAreExactModulo := by
  refine ⟨fun s a b ra rb ha hb hs => ⟨?add, ?mul⟩, fun _ _ _ _ => decode_alu_cases, fun s t a b ra rb ha hb h => ?cmp⟩
  case add =>
    obtain ⟨t, he, hv, hframe⟩ := aluBinary_completes addBytes operandCount_add ha hb hs
    rw [addBytes_eq_add] at hv
    refine ⟨t, (exec_add a b s).trans he, ?_, ?_, ?_, hframe⟩
    · rw [hv, BitVec.toNat_add]
    · rw [hv, BitVec.toInt_add]
    · intro k hk hrb
      rw [hv, toNat_add_complement hk hrb]
  case mul =>
    obtain ⟨t, he, hv, hframe⟩ := aluBinary_completes mulBytes operandCount_mul ha hb hs
    rw [mulBytes_eq_mul] at hv
    refine ⟨t, (exec_mul a b s).trans he, ?_, ?_, ?_, hframe⟩
    · rw [hv, BitVec.toNat_mul]
    · rw [hv, BitVec.toInt_mul]
    · intro hrb
      rw [hv, hrb, BitVec.mul_zero]
  case cmp =>
    rw [State.flagLess, State.flagGreater, flags_of_cmp ha hb h]
    exact ⟨compareFlags_less_iff .., compareFlags_greater_iff ..⟩

end Sys2Proof.Machine

/-! Reset (70_reset_and_hazards.md section 1), and runs that never end (section 4). -/

namespace Sys2Proof.Machine

variable {s t : State} {a b : Byte} {i : Instr}

/-! ### The flags byte at reset and after CMP -/

theorem compareFlags_ne_zero (l r : Byte) : compareFlags l r ≠ 0#8 := by
  unfold compareFlags
  split_ifs <;> decide

theorem flags_ne_zero_of_cmp (ha : a.toNat ≤ 7) (hb : b.toNat ≤ 7) (h : exec (.cmp a b) s = .next t) :
    t.flags ≠ 0#8 := by
  have hf := flags_of_cmp (ra := ⟨a.toNat, by omega⟩) (rb := ⟨b.toNat, by omega⟩) rfl rfl h
  rw [hf]
  exact compareFlags_ne_zero _ _

/-- Settles O1: the reset values are computed, and CMP's flags byte always has one bit set. -/
theorem resetStackPointerAndFlags : Obligations.ResetStackPointerAndFlags :=
  ⟨by decide, by decide, by decide, by decide, by decide, fun _ _ _ _ ha hb h => flags_ne_zero_of_cmp ha hb h⟩

/-! ### What a step can do to memory -/

/-- Memory changes only by one byte stored at a byte address, the stack pointer of a PUSH or CALL (42_stack.md R100). -/
theorem exec_mem_cases (h : exec i s = .next t) :
    t.mem = s.mem ∨ ∃ sp v : Byte, t.mem = putCell s.mem sp.toNat v := by
  cases i with
  | ldi a imm =>
    rcases execLdi_cases h with ⟨_, -, rfl⟩ | ⟨-, rfl⟩ <;> exact .inl rfl
  | prn a =>
    rcases execPrn_cases h with ⟨_, -, rfl⟩ | ⟨-, rfl⟩ <;> exact .inl rfl
  | hlt =>
    rw [execHlt_cases h]
    exact .inl rfl
  | add a b | mul a b =>
    rcases aluBinary_cases h with ⟨_, _, -, -, rfl⟩ | ⟨_, -, -, rfl⟩ <;> exact .inl rfl
  | cmp a b =>
    rcases execCmp_cases h with ⟨_, _, -, -, rfl⟩ | ⟨_, -, -, rfl⟩ <;> exact .inl rfl
  | push a =>
    rcases execPush_cases h with ⟨_, sp, -, -, -, rfl⟩ | ⟨-, rfl⟩ | ⟨-, rfl⟩
    · exact .inr ⟨sp, _, rfl⟩
    · exact .inl rfl
    · exact .inl rfl
  | pop a =>
    rcases execPop_cases h with ⟨_, _, _, -, -, -, rfl⟩ | ⟨-, rfl⟩ | rfl <;> exact .inl rfl
  | call a =>
    rcases execCall_cases h with ⟨_, sp, -, -, -, rfl⟩ | ⟨-, rfl⟩ | ⟨-, rfl⟩
    · exact .inr ⟨sp, _, rfl⟩
    · exact .inl rfl
    · exact .inl rfl
  | ret =>
    rw [exec_ret] at h
    rcases execRet_cases h with ⟨_, -, rfl⟩ | ⟨-, rfl⟩ <;> exact .inl rfl
  | jmp a =>
    rcases execJmp_cases h with ⟨_, -, rfl⟩ | ⟨-, rfl⟩ <;> exact .inl rfl
  | jeq a | jne a =>
    rcases jumpIf_cases h with ⟨-, _, -, rfl⟩ | ⟨-, -, rfl⟩ | ⟨-, rfl⟩ <;> exact .inl rfl

theorem exec_keeps_wf (hs : Memory.wf s.mem) (h : exec i s = .next t) : Memory.wf t.mem := by
  rcases exec_mem_cases h with e | ⟨sp, v, e⟩
  · rw [e]
    exact hs
  · rw [e]
    exact putCell_wf hs sp.isLt v

theorem step_keeps_wf (hs : Memory.wf s.mem) (h : step s = .next t) : Memory.wf t.mem := by
  obtain ⟨-, ⟨f, ir, rfl⟩ | ⟨i, -, he⟩⟩ := step_next_cases h
  · exact hs
  · exact exec_keeps_wf hs he

/-! ### What every step keeps, every run keeps -/

/-- A run of `k + 1` steps that answers is a step that answers and a run of `k` from there. -/
theorem runSteps_succ_next {k : Nat} (h : runSteps (k + 1) s = .next t) :
    ∃ u, step s = .next u ∧ runSteps k u = .next t := by
  cases e : step s with
  | next u => exact ⟨u, rfl, (runSteps_succ_of_next e).symm.trans h⟩
  | fault f =>
    rw [runSteps_succ_of_fault e] at h
    cases h
  | refused r =>
    simp only [runSteps, Host.Core.run, show core.step s = _ from e] at h
    cases h

theorem runSteps_keeps {P : State → Prop} (hP : ∀ s t, P s → step s = .next t → P t) {k : Nat}
    (hs : P s) (h : runSteps k s = .next t) : P t := by
  induction k generalizing s with
  | zero =>
    cases h
    exact hs
  | succ k ih =>
    obtain ⟨u, hu, hrun⟩ := runSteps_succ_next h
    exact ih (hP s u hs hu) hrun

/-! ### The finite part of the state: registers, pc and memory (70_reset_and_hazards.md R172) -/

/-- Registers, pc and cells as a value of a finite type; status and OUT are left out. -/
def State.snapshot (s : State) : (Reg → Byte) × Pc × (Fin Config.memSize → Byte) :=
  (s.reg, s.pc, fun a => cellAt s.mem a)

/-- States in canonical form with one snapshot agree in registers, pc and memory as data. -/
theorem eq_of_snapshot_eq (hs : Memory.wf s.mem) (ht : Memory.wf t.mem) (h : s.snapshot = t.snapshot) :
    s.regs = t.regs ∧ s.pc = t.pc ∧ s.mem = t.mem := by
  obtain ⟨hreg, hrest⟩ := Prod.mk.inj h
  obtain ⟨hpc, hcell⟩ := Prod.mk.inj hrest
  exact ⟨Vector.ext fun r hr => congrFun hreg ⟨r, hr⟩, hpc, hs.ext ht fun a ha => congrFun hcell ⟨a, ha⟩⟩

/-- A run that never ends repeats a snapshot, there being finitely many. -/
theorem snapshot_repeats (run : Nat → State) : ∃ i j, i < j ∧ (run i).snapshot = (run j).snapshot := by
  obtain ⟨i, j, hne, he⟩ := Finite.exists_ne_map_eq_of_infinite fun k => (run k).snapshot
  rcases Nat.lt_or_gt_of_ne hne with hlt | hgt
  · exact ⟨i, j, hlt, he⟩
  · exact ⟨j, i, hgt, he.symm⟩

theorem endless_run_repeats (hs : Memory.wf s.mem) (hrun : ∀ k, ∃ t, runSteps k s = .next t) :
    ∃ i j t u, i < j ∧ runSteps i s = .next t ∧ runSteps j s = .next u ∧
      t.regs = u.regs ∧ t.pc = u.pc ∧ t.mem = u.mem := by
  choose run hrun using hrun
  have hwf (k : Nat) : Memory.wf (run k).mem :=
    runSteps_keeps (P := fun s => Memory.wf s.mem) (fun _ _ => step_keeps_wf) hs (hrun k)
  obtain ⟨i, j, hij, he⟩ := snapshot_repeats run
  exact ⟨i, j, run i, run j, hij, hrun i, hrun j, eq_of_snapshot_eq (hwf i) (hwf j) he⟩

/-! ### A run whose output grows for ever -/

theorem exec_prn_of_register {ra : Reg} (ha : a.toNat = ra.val) :
    exec (.prn a) s = .next ((s.emit (s.reg ra)).advance 0x47#8) := by
  simp [exec_prn, execPrn, regIdx_of_eq ha]

theorem exec_jmp_of_register {ra : Reg} (ha : a.toNat = ra.val) :
    exec (.jmp a) s = .next (s.setPc (pcOfByte (s.reg ra))) := by
  simp [exec_jmp, execJmp, jumpVia, regIdx_of_eq ha]

/-- The loaded program PRN R0; JMP R0, which prints register 0 and goes back to address 0. -/
def printLoop : State := loadFrom State.reset 0 [0x47#8, 0#8, 0x54#8, 0#8]

/-- The loop at its start, after some output. -/
def printer (out : List Byte) : State := { printLoop with out := out }

theorem printer_inv (out : List Byte) : (printer out).Inv where
  mem := loadFrom_wf _ wf_nil 0
  pc := (by decide : printLoop.pc.toNat ≤ 256)
  fault := fun _ hr => by cases hr

theorem printer_runs_prn (out : List Byte) : (printer out).Runs (.prn 0#8) :=
  ⟨0x47#8, 0#8, 0x54#8, (by decide : printLoop.Fetches 0x47#8 0#8 0x54#8), rfl⟩

theorem printer_runs_jmp (out : List Byte) : ((printer out).setPc 2#9).Runs (.jmp 0#8) :=
  ⟨0x54#8, 0#8, 0#8, (by decide : (printLoop.setPc 2#9).Fetches 0x54#8 0#8 0#8), rfl⟩

theorem step_printer (out : List Byte) : step (printer out) = .next ((printer (out ++ [0#8])).setPc 2#9) := by
  rw [step_of_runs rfl (printer_runs_prn out), exec_prn_of_register (a := 0#8) (ra := 0) rfl]
  rfl

theorem step_printer_jump (out : List Byte) : step ((printer out).setPc 2#9) = .next (printer out) := by
  rw [step_of_runs rfl (printer_runs_jmp out), exec_jmp_of_register (a := 0#8) (ra := 0) rfl]
  rfl

/-- Two steps are one round of the loop, and a round prints in its first step. -/
theorem runSteps_printer (k : Nat) : ∀ out : List Byte,
    ∃ t, runSteps k (printer out) = .next t ∧ 2 * out.length + k ≤ 2 * t.out.length := by
  induction k using Nat.twoStepInduction with
  | zero => exact fun out => ⟨printer out, rfl, le_rfl⟩
  | one =>
    refine fun out => ⟨_, (runSteps_succ_of_next (step_printer out)).trans (runSteps_zero _), ?_⟩
    simp only [setPc_out, printer, List.length_append, List.length_singleton]
    omega
  | more k ih _ =>
    intro out
    obtain ⟨t, ht, hlen⟩ := ih (out ++ [0#8])
    rw [List.length_append, List.length_singleton] at hlen
    refine ⟨t, ?_, by omega⟩
    rw [runSteps_succ_of_next (step_printer out), runSteps_succ_of_next (step_printer_jump _)]
    exact ht

/-- Settles O44: the printing loop never ends and prints every second step; any endless run repeats one of the finitely many
snapshots, and canonical memories with the same cells are equal. -/
theorem endlessRunRepeatsState : Obligations.EndlessRunRepeatsState := by
  refine ⟨⟨printer [], printer_inv [], rfl, fun k => ?_⟩, fun s hs => endless_run_repeats hs.mem⟩
  obtain ⟨t, ht, hlen⟩ := runSteps_printer k []
  exact ⟨t, ht, by simpa using hlen⟩

end Sys2Proof.Machine

/-! The decoder and the encoder agree (30_encoding.md sections 1, 3 and 4). -/

namespace Sys2Proof

variable {ir opa opb : Byte} {i : Instr}

/-! ### The count field -/

theorem operandCount_toNat (b : Byte) : (operandCount b).toNat = (b >>> 6).toNat := by
  have := b.isLt
  simp only [operandCount, BitVec.extractLsb'_toNat, BitVec.toNat_ushiftRight, Nat.shiftRight_eq_div_pow]
  omega

theorem operandCount_opcodeOf_le (i : Instr) : (operandCount (opcodeOf i)).toNat ≤ 2 := by
  cases i <;> simp

/-- The count field says how many operand bytes follow the opcode byte (30_encoding.md R52). -/
theorem encode_length (i : Instr) : (encode i).length = (opcodeOf i >>> 6).toNat + 1 := by
  rw [← operandCount_toNat]
  cases i <;> simp [encode, operandsOf]

/-! ### Legal opcode bytes -/

/-- The bytes of an instruction, whatever follows them, decode to it. -/
theorem decode_of_prefix (h : encode i <+: [ir, opa, opb]) : decode ir opa opb = .ok i := by
  cases i <;> simp only [encode, operandsOf, List.cons_prefix_cons, List.nil_prefix, and_true] at h
  case hlt | ret => simp [← h]
  case ldi | add | mul | cmp =>
    obtain ⟨rfl, rfl, rfl⟩ := h
    simp
  all_goals
    obtain ⟨rfl, rfl⟩ := h
    simp

/-- Fetched bytes that decode to an instruction begin with its encoding. -/
theorem prefix_of_decode (h : decode ir opa opb = .ok i) : encode i <+: [ir, opa, opb] := by
  obtain ⟨rfl, hi⟩ := decode_ok_cases h
  rcases hi with rfl | rfl | rfl | rfl | rfl | rfl | rfl | rfl | rfl | rfl | rfl | rfl | rfl
  all_goals simp [encode, operandsOf]

/-- Settles O6: one direction runs the decoder on each encoding, the other inverts the decoder. -/
theorem decodeIffEncodingFetched : Obligations.DecodeIffEncodingFetched := fun _ _ _ _ =>
  ⟨prefix_of_decode, decode_of_prefix⟩

/-- Settles O7: each word is run through the decoder. -/
theorem sampleWordsDecode : Obligations.SampleWordsDecode :=
  ⟨rfl, rfl, rfl, rfl, rfl, rfl, rfl, rfl, rfl⟩

/-- Bytes that agree in the encoding's length decode alike. -/
theorem decode_of_take_eq {x y : Byte} (h : decode ir opa opb = .ok i)
    (hn : [ir, opa, opb].take ((ir >>> 6).toNat + 1) = [ir, x, y].take ((ir >>> 6).toNat + 1)) :
    decode ir x y = .ok i := by
  refine decode_of_prefix (List.prefix_iff_eq_take.2 ?_)
  rw [encode_length, ← (decode_ok_cases h).1, ← hn, (decode_ok_cases h).1, ← encode_length]
  exact (decode_ok_cases h).1 ▸ List.prefix_iff_eq_take.1 (prefix_of_decode h)

/-- Settles O9: as many fetched bytes as the count field says, and no others, are the encoding. -/
theorem unownedOperandBytesIgnored : Obligations.UnownedOperandBytesIgnored := fun _ _ _ _ _ _ h =>
  ⟨fun hn => decode_of_take_eq h (by rw [hn]; rfl), fun hn => decode_of_take_eq h (by rw [hn]; rfl)⟩

/-! ### Illegal opcode bytes -/

theorem decode_of_illegal_alu (hbit : isAlu ir = true) (hir : ir ≠ 0xA0#8 ∧ ir ≠ 0xA2#8 ∧ ir ≠ 0xA7#8) :
    decode ir opa opb = .error (.unsupportedAluOperation ir) := by
  obtain ⟨h1, h2, h3⟩ := hir
  rw [decode, if_pos hbit, decodeAlu, if_neg h1, if_neg h2, if_neg h3]

theorem decode_of_unknown (hbit : isAlu ir = false)
    (hir : ir ∉ ([0x82#8, 0x47#8, 0x01#8, 0x45#8, 0x46#8, 0x50#8, 0x11#8, 0x54#8, 0x55#8, 0x56#8] : List Byte)) :
    decode ir opa opb = .error (.unknownOpcode ir) := by
  simp only [List.mem_cons, List.not_mem_nil, or_false, not_or] at hir
  simp [decode, hbit, decodeTable, hir]

/-- Settles O8: a rejection says which table failed, and a byte in neither table fails the one its bit 5 selects. -/
theorem illegalOpcodesSplitByBitFive : Obligations.IllegalOpcodesSplitByBitFive := by
  refine fun ir opa opb =>
    ⟨⟨fun h => ?_, fun ⟨hbit, hir⟩ => decode_of_illegal_alu hbit hir⟩, fun h => ?_, fun ⟨hbit, hir⟩ => ?_⟩
  · rcases decode_error_cases h with ⟨-, hbit, hir⟩ | ⟨e, -⟩
    · exact ⟨hbit, by simpa using hir⟩
    · cases e
  · rcases decode_error_cases h with ⟨e, -⟩ | ⟨-, hbit, hir⟩
    · cases e
    · exact ⟨hbit, by simpa using hir⟩
  · exact decode_of_unknown hbit (by simpa using hir)

end Sys2Proof

/-! Every instruction as two relations read off its meaning (41_alu.md to 44_load_print_halt.md): the state it leaves when it
completes, and the fault it takes when it does not. Frames, completions and faults are stated from these. -/

namespace Sys2Proof.Machine

variable {s t : State} {i : Instr} {f : FaultInfo} {a : Byte} {ir : Byte}

/-- Control goes to the register byte that the operand names (43_control_flow.md R110). -/
def JumpsTo (a : Byte) (s t : State) : Prop := ∃ ra, regIdx a = .ok ra ∧ t = s.setPc (pcOfByte (s.reg ra))

/-- The state an instruction leaves when it completes. -/
def Completes (i : Instr) (s t : State) : Prop :=
  match i with
  | .ldi a imm => ∃ ra, regIdx a = .ok ra ∧ t = (s.setReg ra imm).advance 0x82#8
  | .prn a => ∃ ra, regIdx a = .ok ra ∧ t = (s.emit (s.reg ra)).advance 0x47#8
  | .hlt => t = (s.advance 0x01#8).setStatus .halted
  | .add a b => ∃ ra, regIdx a = .ok ra ∧ ∃ rb, regIdx b = .ok rb ∧
      t = (s.setReg ra (addBytes (s.reg ra) (s.reg rb))).advance 0xA0#8
  | .mul a b => ∃ ra, regIdx a = .ok ra ∧ ∃ rb, regIdx b = .ok rb ∧
      t = (s.setReg ra (mulBytes (s.reg ra) (s.reg rb))).advance 0xA2#8
  | .cmp a b => ∃ ra, regIdx a = .ok ra ∧ ∃ rb, regIdx b = .ok rb ∧
      t = (s.setReg Config.FL (compareFlags (s.reg ra) (s.reg rb))).advance 0xA7#8
  | .push a => ∃ ra, regIdx a = .ok ra ∧ ∃ sp, pushAddress s = .ok sp ∧
      t = (pushed s sp ((s.setReg Config.SP sp).reg ra)).advance 0x45#8
  | .pop a => ∃ ra, regIdx a = .ok ra ∧ ∃ v, topByte s = .ok v ∧
      ∃ sp, spAfter ((s.setReg ra v).reg Config.SP) = .ok sp ∧
      t = ((s.setReg ra v).setReg Config.SP sp).advance 0x46#8
  | .call a => ∃ ra, regIdx a = .ok ra ∧ ∃ sp, pushAddress s = .ok sp ∧
      t = (pushed s sp (returnAddress s.pc 0x50#8)).setPc (pcOfByte ((s.setReg Config.SP sp).reg ra))
  | .ret => ∃ v, topByte s = .ok v ∧ ∃ sp, spAfter (s.reg Config.SP) = .ok sp ∧
      t = (s.setReg Config.SP sp).setPc (pcOfByte v)
  | .jmp a => JumpsTo a s t
  | .jeq a => (s.flagEqual = true ∧ JumpsTo a s t) ∨ (s.flagEqual = false ∧ t = s.advance 0x55#8)
  | .jne a => (s.flagEqual = false ∧ JumpsTo a s t) ∨ (s.flagEqual = true ∧ t = s.advance 0x56#8)

/-- The fault an instruction takes, the first check that fails being the one reported. -/
def Faults (i : Instr) (s : State) (f : FaultInfo) : Prop :=
  match i with
  | .ldi a _ | .prn a | .jmp a => regIdx a = .error f
  | .hlt => False
  | .add a b | .mul a b | .cmp a b => regIdx a = .error f ∨ ∃ ra, regIdx a = .ok ra ∧ regIdx b = .error f
  | .push a | .call a => regIdx a = .error f ∨ ∃ ra, regIdx a = .ok ra ∧ pushAddress s = .error f
  | .pop a => regIdx a = .error f ∨ ∃ ra, regIdx a = .ok ra ∧ ∃ v, topByte s = .ok v ∧
      spAfter ((s.setReg ra v).reg Config.SP) = .error f
  | .ret => spAfter (s.reg Config.SP) = .error f
  | .jeq a => s.flagEqual = true ∧ regIdx a = .error f
  | .jne a => s.flagEqual = false ∧ regIdx a = .error f

/-! ### The shared operations, completing or faulting -/

theorem finish_next_iff {e : Except FaultInfo State} :
    finish ir s e = .next t ↔ e = .ok t ∨ ∃ f, e = .error f ∧ t = s.withFault f (some ir) := by
  refine ⟨finish_next, ?_⟩
  rintro (rfl | ⟨f, rfl, rfl⟩)
  · exact finish_ok ..
  · exact finish_error ..

theorem pushByte_ok_iff {v : State → Byte} :
    pushByte s v = .ok t ↔ ∃ sp, pushAddress s = .ok sp ∧ t = pushed s sp (v (s.setReg Config.SP sp)) := by
  constructor
  · intro h
    obtain ⟨sp, hsp, -⟩ := bind_ok_iff.1 h
    exact ⟨sp, hsp, Except.ok.inj (h.symm.trans (pushByte_of_sp hsp))⟩
  · rintro ⟨sp, hsp, rfl⟩
    exact pushByte_of_sp hsp

theorem pushByte_error_iff {v : State → Byte} : pushByte s v = .error f ↔ pushAddress s = .error f := by
  cases h : pushAddress s with
  | ok sp => simp [pushByte_of_sp h]
  | error g => simp [pushByte, h]

@[simp] theorem pushed_reg (sp v : Byte) (r : Reg) : (pushed s sp v).reg r = (s.setReg Config.SP sp).reg r := rfl

theorem jumpVia_ok_iff : jumpVia a s = .ok t ↔ JumpsTo a s t := by
  simp [jumpVia, JumpsTo, bind_ok_iff, eq_comm (a := t)]

theorem jumpVia_error_iff : jumpVia a s = .error f ↔ regIdx a = .error f := by
  simp [jumpVia, bind_error_iff]

theorem jumpIf_next_iff {taken : Bool} : jumpIf taken ir a s = .next t ↔
    ((taken = true ∧ JumpsTo a s t) ∨ (taken = false ∧ t = s.advance ir)) ∨
      ∃ f, (taken = true ∧ regIdx a = .error f) ∧ t = s.withFault f (some ir) := by
  cases taken <;> simp [jumpIf, finish_next_iff, jumpVia_ok_iff, jumpVia_error_iff, eq_comm (a := t)]

/-- An instruction answers exactly the state it completes with, or the fault it takes: its checks succeed in turn, or one
is the first to fail. -/
theorem exec_next_iff : exec i s = .next t ↔
    Completes i s t ∨ ∃ f, Faults i s f ∧ t = s.withFault f (some (opcodeOf i)) := by
  cases i with
  | ldi a imm =>
    simp [exec_ldi, execLdi, immediate, finish_next_iff, bind_ok_iff, bind_error_iff, Completes, Faults, eq_comm (a := t)]
  | prn a =>
    simp [exec_prn, execPrn, finish_next_iff, bind_ok_iff, bind_error_iff, Completes, Faults, eq_comm (a := t)]
  | hlt => simp [exec_hlt, execHlt, Completes, Faults, eq_comm (a := t)]
  | add a b =>
    simp [exec_add, execAdd, aluBinary, finish_next_iff, bind_ok_iff, bind_error_iff, Completes, Faults, eq_comm (a := t)]
  | mul a b =>
    simp [exec_mul, execMul, aluBinary, finish_next_iff, bind_ok_iff, bind_error_iff, Completes, Faults, eq_comm (a := t)]
  | cmp a b =>
    simp [exec_cmp, execCmp, finish_next_iff, bind_ok_iff, bind_error_iff, Completes, Faults, eq_comm (a := t)]
  | push a =>
    simp [exec_push, execPush, finish_next_iff, bind_ok_iff, bind_error_iff, pushByte_ok_iff, pushByte_error_iff,
      Completes, Faults, eq_comm (a := t)]
  | pop a =>
    simp [exec_pop, execPop, finish_next_iff, bind_ok_iff, bind_error_iff, topByte_eq, Completes, Faults,
      eq_comm (a := t)]
  | call a =>
    simp [exec_call, execCall, finish_next_iff, bind_ok_iff, bind_error_iff, pushByte_ok_iff, pushByte_error_iff,
      Completes, Faults, eq_comm (a := t)]
  | ret =>
    simp [exec_ret, execRet, finish_next_iff, bind_ok_iff, bind_error_iff, topByte_eq, Completes, Faults,
      eq_comm (a := t)]
  | jmp a => simp [exec_jmp, execJmp, finish_next_iff, jumpVia_ok_iff, jumpVia_error_iff, Completes, Faults]
  | jeq a => simp [exec_jeq, execJeq, jumpIf_next_iff, Completes, Faults]
  | jne a => simp [exec_jne, execJne, jumpIf_next_iff, Completes, Faults]

theorem exec_of_completes (h : Completes i s t) : exec i s = .next t := exec_next_iff.2 (.inl h)

theorem exec_of_faults (h : Faults i s f) : exec i s = .next (s.withFault f (some (opcodeOf i))) :=
  exec_next_iff.2 (.inr ⟨f, h, rfl⟩)

/-! ### What a completed instruction leaves unchanged -/

/-- The effect an instruction may have on each part of the state (10_state.md R11, R17, R27; 42_stack.md R100). -/
structure Frame (i : Instr) (s t : State) : Prop where
  regs : ∀ r, ¬ MayWrite i r → t.reg r = s.reg r
  mem : t.mem = s.mem ∨
    ∃ o sp v, (i = .push o ∨ i = .call o) ∧ pushAddress s = .ok sp ∧ t.mem = putCell s.mem sp.toNat v
  out : t.out = s.out ∨ ∃ o ro, i = .prn o ∧ regIdx o = .ok ro ∧ t.out = s.out ++ [s.reg ro]
  status : t.status = s.status ∨ t.status = .halted
  pc : t.pc = nextPc s.pc (opcodeOf i) ∨ (Transfers s i ∧ ∃ v, t.pc = pcOfByte v)

/-- A register written alone: the frame of LDI and the ALU operations. -/
theorem frame_of_setReg {r : Reg} (v : Byte) (hw : MayWrite i r) :
    Frame i s ((s.setReg r v).advance (opcodeOf i)) :=
  ⟨fun _ hq => setReg_reg_of_ne _ _ _ fun e => hq (e ▸ hw), .inl rfl, .inl rfl, .inl rfl, .inl rfl⟩

theorem frame_of_jumpsTo (hi : Transfers s i) (h : JumpsTo a s t) : Frame i s t := by
  obtain ⟨ra, -, rfl⟩ := h
  exact ⟨fun _ _ => rfl, .inl rfl, .inl rfl, .inl rfl, .inr ⟨hi, _, rfl⟩⟩

theorem frame_of_advance : Frame i s (s.advance (opcodeOf i)) :=
  ⟨fun _ _ => rfl, .inl rfl, .inl rfl, .inl rfl, .inl rfl⟩

theorem Completes.frame (h : Completes i s t) : Frame i s t := by
  cases i with
  | ldi a imm =>
    obtain ⟨ra, ha, rfl⟩ := h
    exact frame_of_setReg imm (regIdx_ok_iff.1 ha)
  | prn a =>
    obtain ⟨ra, ha, rfl⟩ := h
    exact ⟨fun _ _ => rfl, .inl rfl, .inr ⟨a, ra, rfl, ha, rfl⟩, .inl rfl, .inl rfl⟩
  | hlt =>
    obtain rfl := h
    exact ⟨fun _ _ => rfl, .inl rfl, .inl rfl, .inr rfl, .inl rfl⟩
  | add a b | mul a b =>
    obtain ⟨ra, ha, rb, -, rfl⟩ := h
    exact frame_of_setReg _ (regIdx_ok_iff.1 ha)
  | cmp a b =>
    obtain ⟨ra, -, rb, -, rfl⟩ := h
    exact frame_of_setReg _ rfl
  | push a =>
    obtain ⟨ra, -, sp, hsp, rfl⟩ := h
    exact ⟨fun r hr => setReg_reg_of_ne s _ sp hr, .inr ⟨a, sp, _, .inl rfl, hsp, rfl⟩, .inl rfl, .inl rfl, .inl rfl⟩
  | pop a =>
    obtain ⟨ra, ha, v, -, sp, -, rfl⟩ := h
    refine ⟨fun r hr => ?_, .inl rfl, .inl rfl, .inl rfl, .inl rfl⟩
    obtain ⟨hra, hsp⟩ := not_or.1 hr
    exact (setReg_reg_of_ne _ _ sp hsp).trans (setReg_reg_of_ne s ra v fun e => hra (e ▸ regIdx_ok_iff.1 ha))
  | call a =>
    obtain ⟨ra, -, sp, hsp, rfl⟩ := h
    exact ⟨fun r hr => setReg_reg_of_ne s _ sp hr, .inr ⟨a, sp, _, .inr rfl, hsp, rfl⟩, .inl rfl, .inl rfl,
      .inr ⟨trivial, _, rfl⟩⟩
  | ret =>
    obtain ⟨v, -, sp, -, rfl⟩ := h
    exact ⟨fun r hr => setReg_reg_of_ne s _ sp hr, .inl rfl, .inl rfl, .inl rfl, .inr ⟨trivial, v, rfl⟩⟩
  | jmp a => exact frame_of_jumpsTo trivial h
  | jeq a | jne a =>
    obtain ⟨hflag, hjump⟩ | ⟨-, rfl⟩ := h
    · exact frame_of_jumpsTo hflag hjump
    · exact frame_of_advance

/-! ### The faults an instruction can take -/

/-- An instruction's fault is one the spec lists, recorded with the opcode byte (60_exceptions.md R131). -/
theorem Faults.legal (h : Faults i s f) (b : Byte) : f.Legal (some b) := by
  have bad {o : Byte} (h : regIdx o = .error f) : f.Legal (some b) := by
    obtain ⟨ho, rfl⟩ := regIdx_error_iff.1 h
    exact ⟨ho, nofun⟩
  have low (h : pushAddress s = .error f) : f.Legal (some b) := by
    obtain ⟨-, rfl⟩ := spBefore_error_iff.1 h
    exact .inr ⟨rfl, nofun⟩
  have high {v : Byte} (h : spAfter v = .error f) : f.Legal (some b) := by
    obtain ⟨-, rfl⟩ := spAfter_error_iff.1 h
    exact ⟨rfl, nofun⟩
  cases i with
  | ldi | prn | jmp => exact bad h
  | hlt => exact h.elim
  | add | mul | cmp =>
    obtain h | ⟨_, -, h⟩ := h
    · exact bad h
    · exact bad h
  | push | call =>
    obtain h | ⟨_, -, h⟩ := h
    · exact bad h
    · exact low h
  | pop =>
    obtain h | ⟨_, -, _, -, h⟩ := h
    · exact bad h
    · exact high h
  | ret => exact high h
  | jeq | jne => exact bad h.2

end Sys2Proof.Machine

/-! One step as a relation (40_loop.md R70 to R73), and what every step keeps: the invariant, and the frames of the whole
machine. -/

namespace Sys2Proof.Machine

variable {s t : State} {i : Instr} {f : FaultInfo} {ir : Option Byte}

/-! ### What a step does -/

/-- The step at `s` raises `f` with `ir` as the recorded opcode byte: in a fetch read, at decode, or in the instruction. -/
inductive StepFaults (s : State) : FaultInfo → Option Byte → Prop where
  | atFetch {f : FaultInfo} {ir : Option Byte} (hf : fetch s = .error (f, ir)) : StepFaults s f ir
  | atDecode {b opa opb : Byte} {e : DecodeReject} (hf : s.Fetches b opa opb) (hd : decode b opa opb = .error e) :
      StepFaults s (faultOfReject e) (some b)
  | inExec {b opa opb : Byte} {i : Instr} {f : FaultInfo} (hf : s.Fetches b opa opb) (hd : decode b opa opb = .ok i)
      (hi : Faults i s f) : StepFaults s f (some b)

theorem step_of_stepFaults (hs : s.status = .running) (h : StepFaults s f ir) : step s = .next (s.withFault f ir) := by
  cases h with
  | atFetch hf => rw [step_of_running hs, runOne_of_fetch_error hf]
  | atDecode hf hd => rw [step_of_running hs, runOne_of_decode_error hf hd]
  | inExec hf hd hi => rw [step_of_running hs, runOne_of_decode_ok hf hd, exec_of_faults hi, (decode_ok_cases hd).1]

/-- A step answers exactly from Running: the fault it raises, or the state its instruction completes with. -/
theorem step_next_iff : step s = .next t ↔ s.status = .running ∧
    ((∃ f ir, StepFaults s f ir ∧ t = s.withFault f ir) ∨ ∃ i, s.Runs i ∧ Completes i s t) := by
  constructor
  · intro h
    rcases step_cases s with ⟨-, e⟩ | ⟨r, -, e⟩ |
      ⟨hs, ⟨f, o, hf, e⟩ | ⟨b, opa, opb, d, hf, hd, e⟩ | ⟨b, opa, opb, i, hf, hd, e⟩⟩
    all_goals rw [e] at h
    · cases h
    · cases h
    · exact ⟨hs, .inl ⟨f, o, .atFetch hf, (Host.Outcome.next.inj h).symm⟩⟩
    · exact ⟨hs, .inl ⟨_, _, .atDecode hf hd, (Host.Outcome.next.inj h).symm⟩⟩
    · rcases exec_next_iff.1 h with hc | ⟨f, hi, rfl⟩
      · exact ⟨hs, .inr ⟨i, ⟨b, opa, opb, hf, hd⟩, hc⟩⟩
      · exact ⟨hs, .inl ⟨f, _, (decode_ok_cases hd).1 ▸ .inExec hf hd hi, rfl⟩⟩
  · rintro ⟨hs, ⟨f, ir, hf, rfl⟩ | ⟨i, hr, hc⟩⟩
    · exact step_of_stepFaults hs hf
    · rw [step_of_runs hs hr, exec_of_completes hc]

/-- A step takes a fault, or has the frame of the instruction it runs. -/
theorem step_frame (h : step s = .next t) : (∃ f ir, t = s.withFault f ir) ∨ ∃ i, s.Runs i ∧ Frame i s t := by
  obtain ⟨-, ⟨f, ir, -, rfl⟩ | ⟨i, hr, hc⟩⟩ := step_next_iff.1 h
  · exact .inl ⟨f, ir, rfl⟩
  · exact .inr ⟨i, hr, hc.frame⟩

theorem Frame.notFaulted (h : Frame i s t) (hs : s.status = .running) : t.NotFaulted := by
  intro r hr
  rcases h.status with e | e
  · rw [e, hs] at hr
    cases hr
  · rw [e] at hr
    cases hr

theorem exec_total (i : Instr) (s : State) : ∃ t, exec i s = .next t := by
  cases i with
  | ldi a imm => rw [exec_ldi, execLdi]; exact finish_total ..
  | prn a => rw [exec_prn, execPrn]; exact finish_total ..
  | hlt => exact ⟨_, exec_of_completes rfl⟩
  | add a b => rw [exec_add, execAdd, aluBinary]; exact finish_total ..
  | mul a b => rw [exec_mul, execMul, aluBinary]; exact finish_total ..
  | cmp a b => rw [exec_cmp, execCmp]; exact finish_total ..
  | push a => rw [exec_push, execPush]; exact finish_total ..
  | pop a => rw [exec_pop, execPop]; exact finish_total ..
  | call a => rw [exec_call, execCall]; exact finish_total ..
  | ret => rw [exec_ret, execRet]; exact finish_total ..
  | jmp a => rw [exec_jmp, execJmp]; exact finish_total ..
  | jeq a => rw [exec_jeq, execJeq, jumpIf]; exact finish_total ..
  | jne a => rw [exec_jne, execJne, jumpIf]; exact finish_total ..

theorem step_total (hs : s.status = .running) : ∃ t, step s = .next t := by
  rcases step_cases s with ⟨h, -⟩ | ⟨r, h, -⟩ |
    ⟨-, ⟨f, ir, -, e⟩ | ⟨b, _, _, d, -, -, e⟩ | ⟨_, _, _, i, -, -, e⟩⟩
  · rw [hs] at h; cases h
  · rw [hs] at h; cases h
  · exact ⟨_, e⟩
  · exact ⟨_, e⟩
  · exact e ▸ exec_total i s

/-- Settles O10: the clauses are the cases of `step_cases`, and an instruction always answers. -/
theorem stepDefinedExactlyWhileRunning : Obligations.StepDefinedExactlyWhileRunning := by
  intro s
  refine ⟨⟨step_total, fun ⟨_, h⟩ => (step_next_iff.1 h).1⟩, fun hs => ?_, fun hs => by simp [step, cycle, hs],
    fun r hs => by simp [step, cycle, hs]⟩
  obtain ⟨t, ht⟩ := step_total hs
  rcases step_next_iff.1 ht with ⟨-, ⟨f, ir, -, rfl⟩ | ⟨i, hr, -⟩⟩
  · exact .inr ⟨f, ir, ht⟩
  · exact .inl ⟨i, hr, step_of_runs hs hr⟩

/-! ### Where an instruction can be fetched -/

theorem memRead_ok_iff {a : Int} {v : Byte} : memRead s a = .ok v ↔ inMemory a ∧ cellAt s.mem a.toNat = v := by
  unfold memRead
  split_ifs with ha
  · exact ⟨fun h => ⟨ha, Except.ok.inj h⟩, fun h => congrArg _ h.2⟩
  · exact ⟨nofun, fun h => absurd h.1 ha⟩

theorem fetchable_iff_fetches : s.Fetchable ↔ ∃ b opa opb, s.Fetches b opa opb := by
  constructor
  · intro h
    rcases fetch_cases (s := s) (by omega) with ⟨-, b, opa, opb, hf, -⟩ | ⟨h', -⟩ | ⟨h', -⟩
    · exact ⟨b, opa, opb, hf⟩
    · omega
    · omega
  · rintro ⟨_, _, _, -, -, hlast⟩
    have := (memRead_ok_iff.1 hlast).1.2
    simp only [Config.memSize] at this
    omega

theorem Frame.pc_of_not_transfers (h : Frame i s t) (hi : ¬ Transfers s i) (hs : s.Fetchable) :
    t.pc.toNat = s.pc.toNat + (operandCount (opcodeOf i)).toNat + 1 := by
  rcases h.pc with e | ⟨hi', -⟩
  · rw [e, nextPc_toNat hs]
  · exact absurd hi' hi

/-! ### The recorded opcode byte (60_exceptions.md R140) -/

theorem fetchRead_ok_iff {a : Int} {v : Byte} : fetchRead s a ir = .ok v ↔ memRead s a = .ok v := by
  unfold fetchRead
  cases memRead s a <;> simp

theorem fetchRead_error_iff {a : Int} {o : Option Byte} :
    fetchRead s a o = .error (f, ir) ↔ memRead s a = .error f ∧ o = ir := by
  unfold fetchRead
  cases memRead s a <;> simp

/-- A failed fetch records the opcode byte exactly if it was read. -/
theorem fetch_error_opcode (h : fetch s = .error (f, ir)) (b : Byte) :
    ir = some b ↔ memRead s s.pc.toNat = .ok b := by
  rcases bind_error_iff.1 h with h | ⟨b', hb, h⟩
  · obtain ⟨hread, rfl⟩ := fetchRead_error_iff.1 h
    simp [hread]
  · have hir : some b' = ir := by
      rcases bind_error_iff.1 h with h | ⟨_, -, h⟩
      · exact (fetchRead_error_iff.1 h).2
      · rcases bind_error_iff.1 h with h | ⟨_, -, h⟩
        · exact (fetchRead_error_iff.1 h).2
        · cases h
    simp [← hir, fetchRead_ok_iff.1 hb]

theorem StepFaults.opcode (h : StepFaults s f ir) (b : Byte) : ir = some b ↔ memRead s s.pc.toNat = .ok b := by
  cases h with
  | atFetch hf => exact fetch_error_opcode hf b
  | atDecode hf _ | inExec hf _ _ => simp [hf.1]

/-- Settles O15: a step that ends Faulted took a fault, and `StepFaults` says which opcode byte is recorded. -/
theorem faultsArePrecise : Obligations.FaultsArePrecise := by
  intro s t r h ht
  obtain ⟨hs, ⟨f, ir, hf, rfl⟩ | ⟨i, -, hc⟩⟩ := step_next_iff.1 h
  · obtain rfl := Status.faulted.inj ht
    exact ⟨rfl, rfl, rfl, rfl, rfl, hf.opcode⟩
  · exact absurd ht (hc.frame.notFaulted hs r)

/-! ### The invariant -/

/-- Every fault of a step is legal, and records no opcode byte exactly at 256. -/
theorem StepFaults.legal (h : StepFaults s f ir) (hpc : s.pc.toNat ≤ 256) :
    f.Legal ir ∧ (ir = none ↔ s.pc.toNat = 256) := by
  cases h with
  | atFetch hf =>
    rcases fetch_cases hpc with ⟨-, _, _, _, -, e⟩ | ⟨h, _, -, e⟩ | ⟨h, e⟩
    all_goals
      rw [e] at hf
      cases hf
    · exact ⟨.inl rfl, nofun, fun h' => by omega⟩
    · exact ⟨.inl rfl, fun _ => h, fun _ => rfl⟩
  | atDecode hf hd =>
    have hs : s.Fetchable := fetchable_iff_fetches.2 ⟨_, _, _, hf⟩
    refine ⟨?_, nofun, fun h' => by omega⟩
    rcases decode_error_cases hd with ⟨rfl, hbit, hir⟩ | ⟨rfl, hbit, hir⟩
    · exact ⟨rfl, hbit, hir⟩
    · exact ⟨rfl, hbit, hir⟩
  | inExec hf _ hi =>
    have hs : s.Fetchable := fetchable_iff_fetches.2 ⟨_, _, _, hf⟩
    exact ⟨hi.legal _, nofun, fun h' => by omega⟩

theorem withFault_inv (hs : s.Inv) (hf : StepFaults s f ir) : (s.withFault f ir).Inv where
  mem := hs.mem
  pc := hs.pc
  fault := by
    intro r hr
    obtain rfl := Status.faulted.inj hr
    obtain ⟨hinfo, hir⟩ := hf.legal hs.pc
    exact ⟨⟨hinfo, hs.pc, hir⟩, rfl⟩

/-- An instruction that was fetched leaves pc in 0..256 (10_state.md R16). -/
theorem Frame.pc_le (h : Frame i s t) (hs : s.Fetchable) : t.pc.toNat ≤ 256 := by
  rcases h.pc with e | ⟨-, v, e⟩
  · have := operandCount_opcodeOf_le i
    rw [e, nextPc_toNat hs]
    omega
  · have := v.isLt
    rw [e, pcOfByte_toNat]
    omega

/-- Settles O5: a fault taken is legal and names pc; a completed instruction has a frame that keeps each part. -/
theorem stepKeepsInvariant : Obligations.StepKeepsInvariant := by
  intro s t hs h
  obtain ⟨hrun, ⟨f, ir, hf, rfl⟩ | ⟨i, ⟨b, opa, opb, hfetch, -⟩, hc⟩⟩ := step_next_iff.1 h
  · exact withFault_inv hs hf
  · exact {
      mem := step_keeps_wf hs.mem h
      pc := hc.frame.pc_le (fetchable_iff_fetches.2 ⟨b, opa, opb, hfetch⟩)
      fault := fun r hr => absurd hr (hc.frame.notFaulted hrun r) }

/-! ### Whole-machine frames -/

/-- A byte stored at a byte address is read back from it. -/
theorem memRead_stored_self {sp v : Byte} (hs : Memory.wf s.mem) (ht : t.mem = putCell s.mem sp.toNat v) :
    memRead t (byteInt sp) = .ok v :=
  memRead_putCell_self hs (inMemory_byteInt sp) ht

theorem sameMemoryExcept_stored {sp v : Byte} (ht : t.mem = putCell s.mem sp.toNat v) :
    SameMemoryExcept (byteInt sp) s t :=
  fun _ ha => memRead_putCell_of_ne (inMemory_byteInt sp) ht ha

/-- Settles O16: the register clause of the frame. -/
theorem stepWritesOnlyNamedRegisters : Obligations.StepWritesOnlyNamedRegisters := by
  intro s t r h hne
  rcases step_frame h with ⟨f, ir, rfl⟩ | ⟨i, hr, hf⟩
  · exact absurd rfl hne
  · exact ⟨i, hr, not_not.1 fun hw => hne (hf.regs r hw)⟩

/-- Settles O17: the memory clause of the frame; a write is read at its own address only. -/
theorem memoryChangesOnlyByPushes : Obligations.MemoryChangesOnlyByPushes := by
  intro s t a h hne
  rcases step_frame h with ⟨f, ir, rfl⟩ | ⟨i, hr, hf⟩
  · exact absurd rfl hne
  · rcases hf.mem with e | ⟨o, sp, v, hi, hsp, e⟩
    · exact absurd (memRead_congr e a) hne
    · have hi' : s.Runs (.push o) ∨ s.Runs (.call o) := by
        rcases hi with rfl | rfl
        · exact .inl hr
        · exact .inr hr
      refine ⟨⟨o, hi'⟩, ?_⟩
      have ha : a = byteInt sp := not_not.1 fun ha => hne (sameMemoryExcept_stored e a ha)
      have hval : (s.reg 7).toNat = sp.toNat + 1 := spBefore_ok_iff.1 hsp
      rw [ha, byteInt]
      omega

/-- Settles O18: the output clause of the frame. -/
theorem outputGrowsOnlyByPrn : Obligations.OutputGrowsOnlyByPrn := by
  intro s t h hne
  rcases step_frame h with ⟨f, ir, rfl⟩ | ⟨i, hr, hf⟩
  · exact absurd rfl hne
  · rcases hf.out with e | ⟨o, ro, rfl, ho, e⟩
    · exact absurd e hne
    · exact ⟨o, ro, regIdx_ok_iff.1 ho, hr, e⟩

theorem step_out_prefix (h : step s = .next t) : s.out <+: t.out := by
  rcases step_frame h with ⟨f, ir, rfl⟩ | ⟨i, -, hf⟩
  · exact List.prefix_rfl
  · rcases hf.out with e | ⟨_, _, -, -, e⟩
    · rw [e]
    · exact e ▸ List.prefix_append ..

/-- Settles O19: that OUT begins with the bytes it had is kept by every step, so by every run. -/
theorem outputNeverTakenBack : Obligations.OutputNeverTakenBack := fun _ s _ h =>
  runSteps_keeps (P := fun u => s.out <+: u.out) (fun _ _ hu hstep => hu.trans (step_out_prefix hstep))
    List.prefix_rfl h

/-- Settles O21: the pc clause of the frame. -/
theorem pcAdvancesUnlessTransfer : Obligations.PcAdvancesUnlessTransfer := by
  intro s t b opa opb i hf hd h ht hi
  have hrun := (step_next_iff.1 h).1
  rcases exec_next_iff.1 ((step_of_runs hrun ⟨b, opa, opb, hf, hd⟩).symm.trans h) with hc | ⟨f, -, rfl⟩
  · rw [hc.frame.pc_of_not_transfers hi (fetchable_iff_fetches.2 ⟨b, opa, opb, hf⟩), ← (decode_ok_cases hd).1,
      operandCount_toNat]
  · exact absurd rfl (ht _)

/-! ### OUT is written and never read (10_state.md R27) -/

theorem Faults.forgets_out (h : Faults i s f) (o : List Byte) : Faults i { s with out := o } f := by
  cases i <;> exact h

theorem StepFaults.forgets_out (h : StepFaults s f ir) (o : List Byte) : StepFaults { s with out := o } f ir := by
  cases h with
  | atFetch hf => exact .atFetch ((fetch_congr (s := s) (t := { s with out := o }) rfl rfl).trans hf)
  | atDecode hf hd => exact .atDecode hf hd
  | inExec hf hd hi => exact .inExec hf hd (hi.forgets_out o)

theorem Completes.forgets_out (h : Completes i s t) (o : List Byte) : ∃ u, Completes i { s with out := o } u ∧
    u.regs = t.regs ∧ u.pc = t.pc ∧ u.mem = t.mem ∧ u.status = t.status := by
  cases i with
  | ldi | prn =>
    obtain ⟨ra, ha, rfl⟩ := h
    exact ⟨_, ⟨ra, ha, rfl⟩, rfl, rfl, rfl, rfl⟩
  | hlt =>
    obtain rfl := h
    exact ⟨_, rfl, rfl, rfl, rfl, rfl⟩
  | add | mul | cmp =>
    obtain ⟨ra, ha, rb, hb, rfl⟩ := h
    exact ⟨_, ⟨ra, ha, rb, hb, rfl⟩, rfl, rfl, rfl, rfl⟩
  | push | call =>
    obtain ⟨ra, ha, sp, hsp, rfl⟩ := h
    exact ⟨_, ⟨ra, ha, sp, hsp, rfl⟩, rfl, rfl, rfl, rfl⟩
  | pop =>
    obtain ⟨ra, ha, v, hv, sp, hsp, rfl⟩ := h
    exact ⟨_, ⟨ra, ha, v, hv, sp, hsp, rfl⟩, rfl, rfl, rfl, rfl⟩
  | ret =>
    obtain ⟨v, hv, sp, hsp, rfl⟩ := h
    exact ⟨_, ⟨v, hv, sp, hsp, rfl⟩, rfl, rfl, rfl, rfl⟩
  | jmp =>
    obtain ⟨ra, ha, rfl⟩ := h
    exact ⟨_, ⟨ra, ha, rfl⟩, rfl, rfl, rfl, rfl⟩
  | jeq | jne =>
    obtain ⟨hflag, ra, ha, rfl⟩ | ⟨hflag, rfl⟩ := h
    · exact ⟨_, .inl ⟨hflag, ra, ha, rfl⟩, rfl, rfl, rfl, rfl⟩
    · exact ⟨_, .inr ⟨hflag, rfl⟩, rfl, rfl, rfl, rfl⟩

/-- Settles O20: neither the fault raised nor the state completed with depends on OUT. -/
theorem outputIsNeverRead : Obligations.OutputIsNeverRead := by
  intro s t o h
  obtain ⟨hs, ⟨f, ir, hf, rfl⟩ | ⟨i, hr, hc⟩⟩ := step_next_iff.1 h
  · exact ⟨_, step_next_iff.2 ⟨hs, .inl ⟨f, ir, hf.forgets_out o, rfl⟩⟩, rfl, rfl, rfl, rfl⟩
  · obtain ⟨u, hu, hsame⟩ := hc.forgets_out o
    exact ⟨u, step_next_iff.2 ⟨hs, .inr ⟨i, hr, hu⟩⟩, hsame⟩

end Sys2Proof.Machine

/-! The steps that end at fetch or decode (40_loop.md R71 to R73; 60_exceptions.md R132, R133). -/

namespace Sys2Proof.Machine

/-- Settles O11: bytes that begin with an encoding decode to it, and a running step is what they decode to. -/
theorem stepRunsDecodedInstruction : Obligations.StepRunsDecodedInstruction := by
  intro s i ir opa opb hs hf hi
  have hd : decode ir opa opb = .ok i := hi.elim decode_of_prefix id
  exact step_of_runs hs ⟨ir, opa, opb, hf, hd⟩

/-- Settles O12: the three cases of a fetch. -/
theorem fetchFaultsAboveTwoFiveThree : Obligations.FetchFaultsAboveTwoFiveThree := by
  refine fun s => ⟨fetchable_iff_fetches, fun hs ir hpc hread => ?_, fun hs hpc => ?_⟩
  · rcases fetch_cases (s := s) (by omega) with ⟨h, -⟩ | ⟨-, ir', hread', e⟩ | ⟨h, -⟩
    · omega
    · obtain rfl := Except.ok.inj (hread.symm.trans hread')
      exact step_of_stepFaults hs (.atFetch e)
    · omega
  · rcases fetch_cases (s := s) (by omega) with ⟨h, -⟩ | ⟨h, -⟩ | ⟨-, e⟩
    · omega
    · omega
    · exact step_of_stepFaults hs (.atFetch e)

/-- Settles O13: the decoder rejects the byte, and a rejection is the step's fault. -/
theorem illegalOpcodeFaults : Obligations.IllegalOpcodeFaults := fun _ _ _ _ hs hf =>
  ⟨fun hbit h1 h2 h3 => step_of_stepFaults hs (.atDecode hf (decode_of_illegal_alu hbit ⟨h1, h2, h3⟩)),
   fun hbit hir => step_of_stepFaults hs (.atDecode hf (decode_of_unknown hbit hir))⟩

end Sys2Proof.Machine

/-! Memory through its two accesses (20_memory.md R30, R31), and the states before the first step (70_reset_and_hazards.md
section 1). -/

namespace Sys2Proof.Machine

variable {s : State} {a : Nat} {v : Byte}

theorem inMemory_iff {a : Int} : inMemory a ↔ 0 ≤ a ∧ a ≤ 255 := by
  simp only [inMemory, Config.memSize]
  omega

/-- Settles O22: the two outcomes of an access, and what a canonical memory reads after a write. -/
theorem memoryReadAndWrite : Obligations.MemoryReadAndWrite := by
  refine fun s a v hs => ⟨fun h0 h255 => ?_, fun hout => ?_⟩
  · have ha : inMemory a := inMemory_iff.2 ⟨h0, h255⟩
    have hlt : a.toNat < Config.memSize := by simp only [Config.memSize]; omega
    exact ⟨⟨_, memRead_of_inMemory ha⟩, { s with mem := putCell s.mem a.toNat v }, if_pos ha,
      memRead_putCell_self hs ha rfl, fun _ hb => memRead_putCell_of_ne ha rfl hb, putCell_wf hs hlt v,
      rfl, rfl, rfl, rfl⟩
  · have ha : ¬ inMemory a := fun h => by have := inMemory_iff.1 h; omega
    exact ⟨memRead_of_not ha, if_neg ha⟩

/-! ### Reset -/

/-- Settles O2: registers are computed, and an empty memory reads the fill byte everywhere. -/
theorem resetRemainingState : Obligations.ResetRemainingState :=
  ⟨by decide, rfl, fun _ h0 h255 => memRead_of_inMemory (inMemory_iff.2 ⟨h0, h255⟩), rfl, rfl⟩

theorem inv_of_running (hm : Memory.wf s.mem) (hpc : s.pc.toNat ≤ 256) (hs : s.status = .running) : s.Inv where
  mem := hm
  pc := hpc
  fault := fun r hr => by rw [hs] at hr; cases hr

/-- Settles O4: at reset memory is empty, pc is 0 and the status is Running. -/
theorem invariantAtReset : Obligations.InvariantAtReset := inv_of_running wf_nil (by decide) rfl

/-! ### Launch -/

theorem loadByte_of_lt (ha : a < Config.memSize) : loadByte s a v = { s with mem := putCell s.mem a v } := if_pos ha

/-- The loader writes memory and nothing else (10_state.md R28). -/
theorem loadFrom_eq_with_mem (vs : List Byte) : loadFrom s a vs = { s with mem := (loadFrom s a vs).mem } := by
  induction vs generalizing s a with
  | nil => rfl
  | cons v vs ih =>
    have hv : loadByte s a v = { s with mem := (loadByte s a v).mem } := by
      unfold loadByte
      split <;> rfl
    rw [loadFrom, ih, hv]

/-- Loaded bytes stand at successive addresses, and every other cell keeps its byte. -/
theorem cellAt_loadFrom (vs : List Byte) (hs : Memory.wf s.mem) (ha : a + vs.length ≤ Config.memSize) (k : Nat) :
    cellAt (loadFrom s a vs).mem k = if a ≤ k then vs.getD (k - a) (cellAt s.mem k) else cellAt s.mem k := by
  induction vs generalizing s a with
  | nil => simp [loadFrom]
  | cons v vs ih =>
    rw [List.length_cons] at ha
    rw [loadFrom, ih (loadByte_wf hs a v) (by omega), loadByte_of_lt (by omega)]
    rcases Nat.lt_trichotomy k a with hlt | rfl | hgt
    · rw [if_neg (by omega), if_neg (by omega), cellAt_putCell_of_ne _ _ (by omega)]
    · rw [if_neg (by omega), if_pos le_rfl, cellAt_putCell_self hs, Nat.sub_self, List.getD_cons_zero]
    · have hk : k - a = k - (a + 1) + 1 := by omega
      rw [if_pos (by omega), if_pos (by omega), cellAt_putCell_of_ne _ _ (by omega), hk, List.getD_cons_succ]

/-- Settles O3: the launch state is the loaded reset state, read cell by cell. -/
theorem launchHoldsImage : Obligations.LaunchHoldsImage := by
  refine fun image =>
    ⟨fun h => ⟨loadFrom State.reset 0 image, if_pos h, fun k hk => ?_, ?_, ?_⟩, fun h => if_neg (Nat.not_le.2 h)⟩
  · rw [memRead_of_inMemory (inMemory_iff.2 (by omega)), Int.toNat_natCast,
      cellAt_loadFrom image wf_nil (by simpa using h)]
    rfl
  · refine inv_of_running (loadFrom_wf image wf_nil 0) ?_ ?_
    all_goals rw [loadFrom_eq_with_mem]
    · exact (by decide : State.reset.pc.toNat ≤ 256)
    · rfl
  · rw [loadFrom_eq_with_mem]
    exact ⟨rfl, rfl, rfl, rfl⟩

end Sys2Proof.Machine

/-! The instructions that complete: what each leaves, and what it leaves unchanged (41_alu.md to 44_load_print_halt.md). -/

namespace Sys2Proof.Machine

variable {s t : State} {a : Byte} {ra : Reg}

theorem sameRegsExcept_setReg (r : Reg) (v : Byte) : SameRegsExcept [r] s (s.setReg r v) :=
  fun _ hq => setReg_reg_of_ne _ _ _ (List.ne_of_not_mem_cons hq)

/-! ### Load, print, halt, compare -/

/-- Settles O24: LDI's one completed state, field by field. -/
theorem ldiLoadsImmediate : Obligations.LdiLoadsImmediate := fun s _ imm ra ha hs =>
  ⟨_, exec_of_completes ⟨ra, regIdx_of_eq ha, rfl⟩, setReg_reg_self s ra imm, sameRegsExcept_setReg ra imm,
    sameMemory_of_mem rfl, rfl, rfl, nextPc_toNat hs 0x82#8⟩

/-- Settles O25: PRN's one completed state, field by field. -/
theorem prnEmitsRegister : Obligations.PrnEmitsRegister := fun _ _ ra ha hs =>
  ⟨_, exec_of_completes ⟨ra, regIdx_of_eq ha, rfl⟩, rfl, rfl, sameMemory_of_mem rfl, rfl, nextPc_toNat hs 0x47#8⟩

/-- Settles O26: HLT's one completed state, field by field. -/
theorem hltHalts : Obligations.HltHalts := fun _ hs =>
  ⟨_, exec_of_completes rfl, rfl, rfl, sameMemory_of_mem rfl, rfl, nextPc_toNat hs 0x01#8⟩

theorem compareFlags_of_eq {l r : Byte} (h : l.toNat = r.toNat) : compareFlags l r = 0x01#8 := if_pos h

theorem compareFlags_of_gt {l r : Byte} (h : l.toNat > r.toNat) : compareFlags l r = 0x02#8 := by
  rw [compareFlags, if_neg (by omega), if_pos h]

theorem compareFlags_of_lt {l r : Byte} (h : l.toNat < r.toNat) : compareFlags l r = 0x04#8 := by
  rw [compareFlags, if_neg (by omega), if_neg (by omega)]

/-- Settles O28: the flags byte is the comparison of the old registers. -/
theorem cmpSetsExactlyOneFlag : Obligations.CmpSetsExactlyOneFlag := by
  intro s a b ra rb ha hb hs
  have hflags := setReg_reg_self s Config.FL (compareFlags (s.reg ra) (s.reg rb))
  exact ⟨_, exec_of_completes ⟨ra, regIdx_of_eq ha, rb, regIdx_of_eq hb, rfl⟩,
    fun h => hflags.trans (compareFlags_of_eq h), fun h => hflags.trans (compareFlags_of_gt h),
    fun h => hflags.trans (compareFlags_of_lt h), sameRegsExcept_setReg _ _, sameMemory_of_mem rfl, rfl, rfl,
    nextPc_toNat hs 0xA7#8⟩

/-! ### Stack -/

/-- A push does not fault while the stack pointer is not 0 (42_stack.md R98). -/
theorem pushAddress_of_ne_zero (h : s.reg 7 ≠ 0#8) :
    ∃ sp, pushAddress s = .ok sp ∧ sp.toNat + 1 = (s.reg 7).toNat := by
  rcases hp : pushAddress s with f | sp
  · exact absurd (BitVec.eq_of_toNat_eq (spBefore_error_iff.1 hp).1) h
  · exact ⟨sp, rfl, (spBefore_ok_iff.1 hp).symm⟩

/-- A pop does not fault while its new stack pointer fits in a byte (42_stack.md R98). -/
theorem spAfter_of_ne_max {v : Byte} (h : v ≠ 0xFF#8) : ∃ sp, spAfter v = .ok sp ∧ sp.toNat = v.toNat + 1 := by
  rcases spAfter_cases v with ⟨sp, hval, hsp⟩ | ⟨h255, -⟩
  · exact ⟨sp, hsp, hval⟩
  · exact absurd (BitVec.eq_of_toNat_eq h255) h

/-- A push while register 7 is not 0 stores one byte at the new stack pointer, wherever the PUSH stands. -/
theorem exec_push_completes (ha : a.toNat = ra.val) (hm : Memory.wf s.mem) (h0 : s.reg 7 ≠ 0#8) :
    ∃ sp t, pushAddress s = .ok sp ∧ sp.toNat + 1 = (s.reg 7).toNat ∧ exec (.push a) s = .next t ∧
      t.reg 7 = sp ∧ SameRegsExcept [7] s t ∧
      memRead t (byteInt sp) = .ok (if ra = 7 then sp else s.reg ra) ∧ SameMemoryExcept (byteInt sp) s t ∧
      t.out = s.out ∧ t.status = s.status ∧ t.pc = nextPc s.pc 0x45#8 := by
  obtain ⟨sp, hsp, hval⟩ := pushAddress_of_ne_zero h0
  refine ⟨sp, _, hsp, hval, exec_of_completes ⟨ra, regIdx_of_eq ha, sp, hsp, rfl⟩, setReg_reg_self s 7 sp,
    sameRegsExcept_setReg 7 sp, ?_, sameMemoryExcept_stored rfl, rfl, rfl, rfl⟩
  rw [← setReg_reg]
  exact memRead_stored_self hm rfl

/-- Settles O29: the push, at a pc where the next address does not wrap. -/
theorem pushStoresBelowStackPointer : Obligations.PushStoresBelowStackPointer := by
  intro s a ra ha hs hm h0
  obtain ⟨sp, t, hsp, hval, ht, h7, hregs, htop, hmem, hout, hstatus, hpc⟩ := exec_push_completes ha hm h0
  exact ⟨sp, t, hsp, hval, ht, h7, hregs, htop, hmem, hout, hstatus, hpc ▸ nextPc_toNat hs 0x45#8⟩

/-- A pop into another register than 7 loads the top of the stack, wherever the POP stands. -/
theorem exec_pop_completes {v : Byte} (ha : a.toNat = ra.val) (hv : memRead s (byteInt (s.reg 7)) = .ok v)
    (hra : ra ≠ 7) (hmax : s.reg 7 ≠ 0xFF#8) :
    ∃ t, exec (.pop a) s = .next t ∧ t.reg ra = v ∧ (t.reg 7).toNat = (s.reg 7).toNat + 1 ∧
      SameRegsExcept [ra, 7] s t ∧ SameMemory s t ∧ t.out = s.out ∧ t.status = s.status ∧
      t.pc = nextPc s.pc 0x46#8 := by
  have h7 : (s.setReg ra v).reg Config.SP = s.reg 7 := setReg_reg_of_ne s ra v hra.symm
  obtain ⟨sp, hsp, hval⟩ := spAfter_of_ne_max hmax
  refine ⟨_, exec_of_completes ⟨ra, regIdx_of_eq ha, v, hv, sp, h7 ▸ hsp, rfl⟩, ?_, ?_, ?_, sameMemory_of_mem rfl,
    rfl, rfl, rfl⟩
  · exact (setReg_reg_of_ne _ _ sp hra).trans (setReg_reg_self s ra v)
  · exact (congrArg BitVec.toNat (setReg_reg_self _ _ sp)).trans hval
  · intro q hq
    obtain ⟨hqa, hq7⟩ := List.ne_and_not_mem_of_not_mem_cons hq
    exact (sameRegsExcept_setReg 7 sp q hq7).trans (setReg_reg_of_ne s ra v hqa)

/-- Settles O30: the increment reads register 7 after the popped byte was written. -/
theorem popLoadsFromStackPointer : Obligations.PopLoadsFromStackPointer := by
  refine fun s a v ra ha hs hv => ⟨fun hra hmax => ?_, ?_⟩
  · obtain ⟨t, ht, hval, h7, hregs, hmem, hout, hstatus, hpc⟩ := exec_pop_completes ha hv hra hmax
    exact ⟨t, ht, hval, h7, hregs, hmem, hout, hstatus, hpc ▸ nextPc_toNat hs 0x46#8⟩
  · rintro rfl hmax
    obtain ⟨sp, hsp, hval⟩ := spAfter_of_ne_max hmax
    refine ⟨_, exec_of_completes ⟨7, regIdx_of_eq ha, v, hv, sp, (setReg_reg_self s 7 v).symm ▸ hsp, rfl⟩, ?_, ?_,
      sameMemory_of_mem rfl, rfl, rfl, nextPc_toNat hs 0x46#8⟩
    · exact (congrArg BitVec.toNat (setReg_reg_self _ _ sp)).trans hval
    · exact fun q hq => (sameRegsExcept_setReg 7 sp q hq).trans (sameRegsExcept_setReg 7 v q hq)

/-- A stack pointer that a push has left is below 0xFF. -/
theorem ne_max_of_succ_eq {v w : Byte} (h : v.toNat + 1 = w.toNat) : v ≠ 0xFF#8 := by
  rintro rfl
  exact absurd w.isLt (by rw [← h]; decide)

/-- Settles O31: the POP finds the stored byte on top and puts the stack pointer back. -/
theorem pushPopRoundTrip : Obligations.PushPopRoundTrip := by
  intro s a b ra rb ha hb hra hrb hm h0
  obtain ⟨sp, t, -, hval, ht, rfl, hregs, htop, -, -, hstatus, -⟩ := exec_push_completes ha hm h0
  obtain ⟨u, hu, hurb, hu7, huregs, -, -, hustatus, -⟩ := exec_pop_completes hb htop hrb (ne_max_of_succ_eq hval)
  have h7 : u.reg 7 = s.reg 7 := BitVec.eq_of_toNat_eq (hu7.trans hval)
  refine ⟨t, u, ht, hu, hustatus.trans hstatus, hurb.trans (if_neg hra), h7, fun q hq => ?_⟩
  by_cases hq7 : q = 7
  · rw [hq7, h7]
  · exact (huregs q (by simpa [hq7] using hq)).trans (hregs q (by simpa using hq7))

/-- Settles O23: the fetch reads the cell the push stored to. -/
theorem pushedByteIsFetched : Obligations.PushedByteIsFetched := by
  intro s t u o sp ir opa opb ro hm ho hsp h hmem hf
  have hpush := exec_of_completes (i := .push o) ⟨ro, regIdx_of_eq ho, sp, hsp, rfl⟩
  obtain rfl := Host.Outcome.next.inj (hpush.symm.trans h)
  have hread : memRead u (byteInt sp) = .ok (if ro = 7 then sp else s.reg ro) := by
    rw [← setReg_reg]
    exact memRead_stored_self hm hmem
  have seen {k : Int} {v : Byte} (hv : memRead u k = .ok v) (hk : k = byteInt sp) : v = if ro = 7 then sp else s.reg ro :=
    Except.ok.inj (hv.symm.trans (hk ▸ hread))
  obtain ⟨h0, h1, h2⟩ := hf
  simp only [byteInt] at seen
  exact ⟨fun e => seen h0 (by omega), fun e => seen h1 (by omega), fun e => seen h2 (by omega)⟩

/-! ### Calls and returns -/

/-- The return address of a CALL that was fetched fits in a byte (43_control_flow.md R105). -/
theorem returnAddress_call_toNat (hs : s.Fetchable) : (returnAddress s.pc 0x50#8).toNat = s.pc.toNat + 2 := by
  have hn : (nextPc s.pc 0x50#8).toNat = s.pc.toNat + 2 := nextPc_toNat hs 0x50#8
  rw [returnAddress, BitVec.toNat_setWidth, hn]
  omega

/-- Settles O32: a push of the return address, then a jump to the register read after the decrement. -/
theorem callPushesReturnAddress : Obligations.CallPushesReturnAddress := by
  intro s a ra ha hs hm h0
  obtain ⟨sp, hsp, hval⟩ := pushAddress_of_ne_zero h0
  refine ⟨sp, returnAddress s.pc 0x50#8, _, hsp, hval, returnAddress_call_toNat hs,
    exec_of_completes ⟨ra, regIdx_of_eq ha, sp, hsp, rfl⟩, ?_, setReg_reg_self s 7 sp, sameRegsExcept_setReg 7 sp,
    memRead_stored_self hm rfl, sameMemoryExcept_stored rfl, rfl, rfl⟩
  rw [← setReg_reg]
  exact pcOfByte_toNat _

/-- Settles O33: the pop's bound is the only check, the top of the stack always being readable. -/
theorem retPopsProgramCounter : Obligations.RetPopsProgramCounter := by
  intro s v hv hmax
  obtain ⟨sp, hsp, hval⟩ := spAfter_of_ne_max hmax
  exact ⟨_, exec_of_completes ⟨v, hv, sp, hsp, rfl⟩, pcOfByte_toNat v,
    (congrArg BitVec.toNat (setReg_reg_self s 7 sp)).trans hval, sameRegsExcept_setReg 7 sp, sameMemory_of_mem rfl,
    rfl, rfl⟩

/-- Settles O34: the CALL leaves the return address on top of the stack and the stack pointer below 0xFF, so the RET pops
it. -/
theorem callRetRoundTrip : Obligations.CallRetRoundTrip := by
  intro s t u a ra ha hs hm h0 h hu7 hutop
  obtain ⟨sp, back, t', -, hval, hback, ht', -, ht7, -, htop, -⟩ := callPushesReturnAddress s a ra ha hs hm h0
  obtain rfl := Host.Outcome.next.inj (ht'.symm.trans h)
  have hmax : u.reg 7 ≠ 0xFF#8 := by rw [hu7, ht7]; exact ne_max_of_succ_eq hval
  have hpop : memRead u (byteInt (u.reg 7)) = .ok back := by rw [hu7, hutop, ht7, htop]
  obtain ⟨v, hv, hpc, hv7, -, -, -, hstatus⟩ := retPopsProgramCounter u back hpop hmax
  refine ⟨v, hv, hstatus, hpc.trans hback, BitVec.eq_of_toNat_eq ?_⟩
  rw [hv7, hu7, ht7, hval]

/-! ### Jumps and branches -/

/-- A jump to a register that exists changes pc alone. -/
theorem jumpsTo_register (ha : a.toNat = ra.val) : ∃ t, JumpsTo a s t ∧ t.pc.toNat = (s.reg ra).toNat ∧
    t.regs = s.regs ∧ SameMemory s t ∧ t.out = s.out ∧ t.status = s.status :=
  ⟨_, ⟨ra, regIdx_of_eq ha, rfl⟩, pcOfByte_toNat _, rfl, sameMemory_of_mem rfl, rfl, rfl⟩

/-- Settles O35: the shared jump to a register. -/
theorem jmpGoesToRegister : Obligations.JmpGoesToRegister := fun _ _ _ ha =>
  (jumpsTo_register ha).imp fun _ ⟨hjump, hrest⟩ => ⟨exec_of_completes hjump, hrest⟩

/-- Settles O36: the two ways JEQ completes. -/
theorem jeqTakenIffEqualBit : Obligations.JeqTakenIffEqualBit := fun _ _ =>
  ⟨fun _ hflag ha => (jumpsTo_register ha).imp fun _ ⟨hjump, hrest⟩ =>
    ⟨exec_of_completes (.inl ⟨hflag, hjump⟩), hrest⟩,
   fun hflag hs => ⟨_, exec_of_completes (.inr ⟨hflag, rfl⟩), nextPc_toNat hs 0x55#8, rfl, sameMemory_of_mem rfl,
    rfl, rfl⟩⟩

/-- Settles O37: the two ways JNE completes. -/
theorem jneTakenIffEqualBitClear : Obligations.JneTakenIffEqualBitClear := fun _ _ =>
  ⟨fun _ hflag ha => (jumpsTo_register ha).imp fun _ ⟨hjump, hrest⟩ =>
    ⟨exec_of_completes (.inl ⟨hflag, hjump⟩), hrest⟩,
   fun hflag hs => ⟨_, exec_of_completes (.inr ⟨hflag, rfl⟩), nextPc_toNat hs 0x56#8, rfl, sameMemory_of_mem rfl,
    rfl, rfl⟩⟩

theorem compareFlags_equal_bit (l r : Byte) : (compareFlags l r).getLsbD 0 = decide (l = r) := by
  unfold compareFlags
  split_ifs with heq hgt
  · simp [BitVec.eq_of_toNat_eq heq]
  · have hne : l ≠ r := fun e => heq (congrArg BitVec.toNat e)
    simp [hne]
  · have hne : l ≠ r := fun e => heq (congrArg BitVec.toNat e)
    simp [hne]

/-- Settles O38: the Equal bit the CMP left decides both branches. -/
theorem branchAfterCmpFollowsComparison : Obligations.BranchAfterCmpFollowsComparison := by
  intro s t a b c ra rb rc ha hb hc h hs
  have hbit : (t.reg 4).getLsbD 0 = decide (s.reg ra = s.reg rb) := by
    rw [← compareFlags_equal_bit, ← flags_of_cmp ha hb h]
    rfl
  by_cases heq : s.reg ra = s.reg rb
  · have hset : (t.reg 4).getLsbD 0 = true := hbit.trans (decide_eq_true heq)
    obtain ⟨u, hu, hupc, -⟩ := (jeqTakenIffEqualBit t c).1 rc hset hc
    obtain ⟨v, hv, hvpc, -⟩ := (jneTakenIffEqualBitClear t c).2 hset hs
    exact ⟨u, v, hu, hv, by rw [if_pos heq, hupc], by rw [if_pos heq, hvpc]⟩
  · have hclear : (t.reg 4).getLsbD 0 = false := hbit.trans (decide_eq_false heq)
    obtain ⟨u, hu, hupc, -⟩ := (jeqTakenIffEqualBit t c).2 hclear hs
    obtain ⟨v, hv, hvpc, -⟩ := (jneTakenIffEqualBitClear t c).1 rc hclear hc
    exact ⟨u, v, hu, hv, by rw [if_neg heq, hupc], by rw [if_neg heq, hvpc]⟩

end Sys2Proof.Machine

/-! The instructions that fault, and with what (60_exceptions.md sections 1 and 4). -/

namespace Sys2Proof.Machine

/-- Settles O40: the operand is the first check of each of these instructions. -/
theorem registerOperandAboveSevenFaults : Obligations.RegisterOperandAboveSevenFaults := by
  intro s o x ho
  have hbad := regIdx_of_ge ho
  exact ⟨exec_of_faults (i := .ldi o x) hbad, exec_of_faults (i := .prn o) hbad,
    exec_of_faults (i := .push o) (.inl hbad), exec_of_faults (i := .pop o) (.inl hbad),
    exec_of_faults (i := .call o) (.inl hbad), exec_of_faults (i := .jmp o) hbad,
    fun hflag => exec_of_faults (i := .jeq o) ⟨hflag, hbad⟩,
    fun hflag => exec_of_faults (i := .jne o) ⟨hflag, hbad⟩⟩

/-- Settles O41: the right operand is looked at only when the left names a register. -/
theorem aluOperandsCheckedLeftFirst : Obligations.AluOperandsCheckedLeftFirst := by
  intro s a b o ho hab
  have hbad : regIdx a = .error (.memoryFault (.registerIndex o)) ∨
      ∃ ra, regIdx a = .ok ra ∧ regIdx b = .error (.memoryFault (.registerIndex o)) := by
    rcases hab with rfl | ⟨ha, rfl⟩
    · exact .inl (regIdx_of_ge ho)
    · exact .inr ⟨⟨a.toNat, by omega⟩, regIdx_of_eq rfl, regIdx_of_ge ho⟩
  exact ⟨exec_of_faults (i := .add a b) hbad, exec_of_faults (i := .mul a b) hbad,
    exec_of_faults (i := .cmp a b) hbad⟩

/-- Settles O42: the controller refuses -1 before a push and 256 after a pop. -/
theorem stackPointerRangeFaults : Obligations.StackPointerRangeFaults := by
  intro s a ha
  obtain ⟨ra, ha⟩ : ∃ ra : Reg, a.toNat = ra.val := ⟨⟨a.toNat, by omega⟩, rfl⟩
  have hra : regIdx a = .ok ra := regIdx_of_eq ha
  have hfull : spAfter 0xFF#8 = .error (.memoryFault (.stackPointer 256)) := spAfter_error_iff.2 ⟨rfl, rfl⟩
  refine ⟨fun h0 => ?_, fun ha7 h255 => ?_, fun htop => ?_, fun h255 => ?_⟩
  · have hlow : pushAddress s = .error (.memoryFault (.address (-1))) :=
      spBefore_error_iff.2 ⟨congrArg BitVec.toNat h0, rfl⟩
    exact ⟨exec_of_faults (i := .push a) (.inr ⟨ra, hra, hlow⟩),
      exec_of_faults (i := .call a) (.inr ⟨ra, hra, hlow⟩)⟩
  · have hne : 7 ≠ ra := by
      rintro rfl
      exact ha7 (BitVec.eq_of_toNat_eq ha)
    have h7 : ∀ v, (s.setReg ra v).reg Config.SP = 0xFF#8 := fun v => (setReg_reg_of_ne s ra v hne).trans h255
    exact exec_of_faults (i := .pop a) (.inr ⟨ra, hra, _, topByte_eq s, (congrArg spAfter (h7 _)).trans hfull⟩)
  · exact exec_of_faults (i := .pop 7)
      (.inr ⟨7, regIdx_of_eq rfl, 0xFF#8, htop, (congrArg spAfter (setReg_reg_self s 7 _)).trans hfull⟩)
  · exact exec_of_faults (i := .ret) ((congrArg spAfter h255).trans hfull)

end Sys2Proof.Machine

/-! Runs (40_loop.md R76): how they end, and one that does not. -/

namespace Sys2Proof.Machine

variable {s t u : State} {k : Nat}

/-! ### Runs that never end -/

theorem runSteps_of_step_self (h : step s = .next s) (k : Nat) : runSteps k s = .next s := by
  induction k with
  | zero => exact runSteps_zero s
  | succ k ih => rw [runSteps_succ_of_next h, ih]

theorem step_jump_to_self {a : Byte} {ra : Reg} (hs : s.status = .running) (hr : s.Runs (.jmp a))
    (ha : a.toNat = ra.val) (hpc : (s.reg ra).toNat = s.pc.toNat) : step s = .next s := by
  have hsame : pcOfByte (s.reg ra) = s.pc := BitVec.eq_of_toNat_eq ((pcOfByte_toNat _).trans hpc)
  rw [step_of_runs hs hr, exec_jmp_of_register ha, hsame]
  rfl

/-- Settles O39: a step that ends where it began is every step of the run. -/
theorem jumpToSelfNeverEnds : Obligations.JumpToSelfNeverEnds := fun _ _ _ hs hr ha hpc =>
  runSteps_of_step_self (step_jump_to_self hs hr ha hpc)

/-- The loaded program JMP R0 at address 0, register 0 being 0. -/
def jumpLoop : State := loadFrom State.reset 0 [0x54#8]

theorem jumpLoop_inv : jumpLoop.Inv := inv_of_running (loadFrom_wf _ wf_nil 0) (by decide) rfl

theorem jumpLoop_runs : jumpLoop.Runs (.jmp 0#8) := ⟨0x54#8, 0#8, 0#8, by decide, rfl⟩

/-! ### Runs that end -/

/-- The run from `s` reached a last step, by an HLT or by a raise, with steps of the `k` asked for left over. -/
def EndedBefore (k : Nat) (s : State) : Prop :=
  ∃ j u t, j + 1 < k ∧ runSteps j s = .next u ∧ step u = .next t ∧
    ((u.Runs .hlt ∧ t.status = .halted ∧ runSteps k s = .fault .noStepHalted) ∨
     (∃ f ir r, step u = raiseFault f ir u ∧ t.status = .faulted r ∧ runSteps k s = .fault (.noStepFaulted r)))

theorem EndedBefore.cons (hstep : step s = .next u) (h : EndedBefore k u) : EndedBefore (k + 1) s := by
  obtain ⟨j, v, t, hj, hv, ht, hend⟩ := h
  refine ⟨j + 1, v, t, by omega, (runSteps_succ_of_next hstep).trans hv, ht, ?_⟩
  rw [runSteps_succ_of_next hstep]
  exact hend

/-- A step out of Running is the last of the run, and the next one answers the model's named fault. -/
theorem endedBefore_of_last_step (hstep : step s = .next t) (ht : t.status ≠ .running) : EndedBefore (k + 2) s := by
  refine ⟨0, s, t, by omega, rfl, hstep, ?_⟩
  rw [runSteps_succ_of_next hstep]
  cases hst : t.status with
  | running => exact absurd hst ht
  | halted => exact .inl ⟨(step_halts_iff hstep).1 hst, rfl, runSteps_succ_of_fault (by simp [step, cycle, hst])⟩
  | faulted r =>
    obtain ⟨f, ir, hraise⟩ := step_faulted_is_raise hstep hst
    exact .inr ⟨f, ir, r, hraise, rfl, runSteps_succ_of_fault (by simp [step, cycle, hst])⟩

theorem runSteps_next_or_ended (hs : s.status = .running) : (∃ t, runSteps k s = .next t) ∨ EndedBefore k s := by
  induction k generalizing s with
  | zero => exact .inl ⟨s, runSteps_zero s⟩
  | succ k ih =>
    obtain ⟨u, hu⟩ := step_total hs
    by_cases hrun : u.status = .running
    · rcases ih hrun with ⟨t, ht⟩ | hend
      · exact .inl ⟨t, (runSteps_succ_of_next hu).trans ht⟩
      · exact .inr (hend.cons hu)
    · cases k with
      | zero => exact .inl ⟨u, (runSteps_succ_of_next hu).trans (runSteps_zero u)⟩
      | succ k => exact .inr (endedBefore_of_last_step hu hrun)

/-- Settles O43: induction on the steps asked for, split by the status each step leaves; a JMP to itself never ends. -/
theorem runEndsHaltedOrFaulted : Obligations.RunEndsHaltedOrFaulted :=
  ⟨fun _ _ hs => runSteps_next_or_ended hs,
   jumpLoop, 0#8, jumpLoop_inv, rfl, jumpLoop_runs, jumpToSelfNeverEnds jumpLoop 0#8 0 rfl jumpLoop_runs rfl rfl⟩

end Sys2Proof.Machine
